-- ==== Sys2Proof/Word.lean ====
section
/-! DEFINITION. The word types and the records of the wire: bytes, words, transports, Frames and Requests
(spec/00_scope.md R8, R9; spec/10_state.md R25 to R27). -/

namespace Sys2Proof

/-- A byte, an unsigned 8-bit value (R8). -/
abbrev Byte := BitVec 8

/-- A word, an unsigned 16-bit value (R8). -/
abbrev Word := BitVec 16

/-- A transport: serial port `p` or TCP connection `c` (R12, R26). -/
inductive Transport where
  | serial (p : Nat)
  | tcp (c : Nat)
deriving DecidableEq, Repr

/-- The fields in which the two Frame variants differ, with the tag `kind` as the constructor (R25).
`crc` is `none` in a Frame that was built and not yet encoded (log 14). -/
inductive Header where
  | tcp (txn proto : Word)
  | rtu (crc : Option Word)
deriving DecidableEq, Repr

/-- A Frame, the decoded form of an ADU (R25). -/
structure Frame where
  head : Header
  unit : Byte
  fc : Byte
  data : List Byte
deriving DecidableEq, Repr

/-- A Request: a Frame and the transport that produced it (R26). -/
structure Request where
  frame : Frame
  origin : Transport
deriving DecidableEq, Repr

/-- What identifies a Request beside its function code and Data: its header fields, its unit id and the
transport its Response goes back to (R26, R147). -/
structure Ident where
  head : Header
  unit : Byte
  origin : Transport
deriving DecidableEq, Repr

end Sys2Proof
end

