-- ==== Sys2Proof/Machine/Bytes.lean ====
section
/-! DEFINITION. Byte order and field arithmetic (spec/00_scope.md R8; spec/20_memory.md R60, R61;
spec/44_register_store.md R215). -/

namespace Sys2Proof.Machine

/-- `hi8(w) = w[15:8]` (R8). -/
def hi8 (w : Word) : Byte := w.extractLsb' 8 8

/-- `lo8(w) = w[7:0]` (R8). -/
def lo8 (w : Word) : Byte := w.extractLsb' 0 8

/-- `u16be(h, l) = 256 * h + l` (R8, R60). -/
def u16be (h l : Byte) : Word := h ++ l

/-- The word whose low byte comes first on the wire: the RTU checksum (R61, R95). -/
def u16le (l h : Byte) : Word := h ++ l

/-- A word's bytes, high byte first (R60). -/
def wordBytes (w : Word) : List Byte := [hi8 w, lo8 w]

/-- `ceil8(n) = (n + 7) div 8` (R8). -/
def ceil8 (n : Nat) : Nat := (n + 7) / 8

/-- A number known to fit one byte, as that byte: a `byteCount` (R215). -/
def countByte (n : Nat) : Byte := BitVec.ofNat 8 n

/-- Byte `i` of a byte sequence (R9). Every use below stands after a length check, so the 0 is never read. -/
def byteAt (s : List Byte) (i : Nat) : Byte := s.getD i 0#8

end Sys2Proof.Machine
end

