-- ==== Sys2Proof/Config.lean ====
section
/-! DEFINITION. The parameters of spec/00_scope.md R7: the fixed and decided ones with their values, the OPEN ones
as constants without a body, of which nothing can be proved but what R7 says. A State carries its instance's READ_MAX,
QUEUE_DEPTH and N_SERIAL, so that statements about every state hold for every value of them (log 10). -/

namespace Sys2Proof.Config

/-- Elements per register bank (`BANK_CAP`, R7). -/
def bankCap : Nat := 65536

/-- Reflected CRC polynomial (`CRC_POLY`, R7, R130). -/
def crcPoly : Word := 0xA001#16

/-- CRC initial value (`CRC_INIT`, R7, R131). -/
def crcInit : Word := 0xFFFF#16

/-- Shortest TCP ADU accepted (`TCP_MIN`, R7, R143). -/
def tcpMin : Nat := 8

/-- Shortest RTU ADU accepted and the reassembler's decode threshold (`RTU_MIN`, R7, R144, R164; conflict C2). -/
def rtuMin : Nat := 5

/-- Most Data bytes a TCP ADU can carry, since its Length field has 16 bits (R93, R145). -/
def tcpMaxData : Nat := 65533

/-- Largest count of a bit read (`MAX_READ_BITS`, R7, R185, R186). -/
def maxReadBits : Nat := 2000

/-- Largest count of a register read (`MAX_READ_REGS`, R7, R187, R188). -/
def maxReadRegs : Nat := 125

/-- Largest count of a coil write (`MAX_WRITE_BITS`, R7, R189). -/
def maxWriteBits : Nat := 1968

/-- Largest count of a register write (`MAX_WRITE_REGS`, R7, R190). -/
def maxWriteRegs : Nat := 123

/-- `READ_MAX - 1`. OPEN in R7: any number (log 10). -/
opaque readMaxLess1 : Nat

/-- Most bytes one device read returns (`READ_MAX >= 1`, R7, R161), of the instance that State.reset creates. -/
def readMax : Nat := readMaxLess1 + 1

/-- `QUEUE_DEPTH - 1`. OPEN in R7: any number (log 10). -/
opaque queueDepthLess1 : Nat

/-- Capacity of the shared request queue (`QUEUE_DEPTH >= 1`, R7, R30), of the instance that State.reset creates. -/
def queueDepth : Nat := queueDepthLess1 + 1

/-- Serial ports the host opens (`N_SERIAL >= 0`, R7; spec/10_state.md R28), of the instance that State.reset creates. OPEN in
R7: any number (log 10). -/
opaque nSerial : Nat

end Sys2Proof.Config
end

