-- ==== Sys2Proof/Syntax.lean ====
section
/-! DEFINITION. The instructions: one constructor per row of spec/opcode_table.json (spec/30_encoding.md R102 to R104).
An instruction is a Request seen by its function code. It carries the Request's identity `q` and its raw Data bytes,
because the decoder does not examine Data (spec/41_frame_codec.md R142) and the handler does (spec/43_dispatcher.md
R183). A row of the illegal space whose mask leaves bits of the function code free carries those bits as `lo`. -/

namespace Sys2Proof

/-- A request, by the row of the opcode table its function code matches. -/
inductive Instr where
  /-- `RDCO`, 0x01, read coils (R185). -/
  | rdco (q : Ident) (data : List Byte)
  /-- `RDDI`, 0x02, read discrete inputs (R186). -/
  | rddi (q : Ident) (data : List Byte)
  /-- `RDHR`, 0x03, read holding registers (R187). -/
  | rdhr (q : Ident) (data : List Byte)
  /-- `RDIR`, 0x04, read input registers (R188). -/
  | rdir (q : Ident) (data : List Byte)
  /-- `WRMC`, 0x0F, write multiple coils (R189). -/
  | wrmc (q : Ident) (data : List Byte)
  /-- `WRMR`, 0x10, write multiple registers (R190). -/
  | wrmr (q : Ident) (data : List Byte)
  /-- `ILLEGAL`, 0x00 (R191, as all the rows below). -/
  | illegal00 (q : Ident) (data : List Byte)
  /-- `ILLEGAL`, 0x05. -/
  | illegal05 (q : Ident) (data : List Byte)
  /-- `ILLEGAL`, 0x06 to 0x07. -/
  | illegal06 (q : Ident) (lo : BitVec 1) (data : List Byte)
  /-- `ILLEGAL`, 0x08 to 0x0B. -/
  | illegal08 (q : Ident) (lo : BitVec 2) (data : List Byte)
  /-- `ILLEGAL`, 0x0C to 0x0D. -/
  | illegal0C (q : Ident) (lo : BitVec 1) (data : List Byte)
  /-- `ILLEGAL`, 0x0E. -/
  | illegal0E (q : Ident) (data : List Byte)
  /-- `ILLEGAL`, 0x11. -/
  | illegal11 (q : Ident) (data : List Byte)
  /-- `ILLEGAL`, 0x12 to 0x13. -/
  | illegal12 (q : Ident) (lo : BitVec 1) (data : List Byte)
  /-- `ILLEGAL`, 0x14 to 0x17. -/
  | illegal14 (q : Ident) (lo : BitVec 2) (data : List Byte)
  /-- `ILLEGAL`, 0x18 to 0x1F. -/
  | illegal18 (q : Ident) (lo : BitVec 3) (data : List Byte)
  /-- `ILLEGAL`, 0x20 to 0x3F. -/
  | illegal20 (q : Ident) (lo : BitVec 5) (data : List Byte)
  /-- `ILLEGAL`, 0x40 to 0x7F. -/
  | illegal40 (q : Ident) (lo : BitVec 6) (data : List Byte)
  /-- `ILLEGAL`, 0x80 to 0xFF. -/
  | illegal80 (q : Ident) (lo : BitVec 7) (data : List Byte)
deriving DecidableEq, Repr

end Sys2Proof
end

