-- ==== Sys2Proof/Machine/Requests.lean ====
section
/-! DEFINITION. An instruction seen as the Request it stands for: its identity, its FunctionCode byte, its Data
(spec/30_encoding.md R96, R103, R104). -/

namespace Sys2Proof

/-- The identity of an instruction. -/
def Instr.ident : Instr → Ident
  | .rdco q _ | .rddi q _ | .rdhr q _ | .rdir q _ | .wrmc q _ | .wrmr q _ => q
  | .illegal00 q _ | .illegal05 q _ | .illegal0E q _ | .illegal11 q _ => q
  | .illegal06 q _ _ | .illegal08 q _ _ | .illegal0C q _ _ | .illegal12 q _ _ | .illegal14 q _ _ => q
  | .illegal18 q _ _ | .illegal20 q _ _ | .illegal40 q _ _ | .illegal80 q _ _ => q

/-- The Data bytes of an instruction. -/
def Instr.data : Instr → List Byte
  | .rdco _ d | .rddi _ d | .rdhr _ d | .rdir _ d | .wrmc _ d | .wrmr _ d => d
  | .illegal00 _ d | .illegal05 _ d | .illegal0E _ d | .illegal11 _ d => d
  | .illegal06 _ _ d | .illegal08 _ _ d | .illegal0C _ _ d | .illegal12 _ _ d | .illegal14 _ _ d => d
  | .illegal18 _ _ d | .illegal20 _ _ d | .illegal40 _ _ d | .illegal80 _ _ d => d

/-- The transport an instruction came from (R26). -/
def Instr.origin (i : Instr) : Transport := i.ident.origin

/-- The function code of a row: the bits its mask fixes and the bits it leaves free (R104). -/
def illegalFc {k : Nat} (base : Byte) (lo : BitVec k) : Byte := base ||| lo.setWidth 8

/-- The FunctionCode byte of an instruction (R103, R104). -/
def Instr.fc : Instr → Byte
  | .rdco _ _ => 0x01#8
  | .rddi _ _ => 0x02#8
  | .rdhr _ _ => 0x03#8
  | .rdir _ _ => 0x04#8
  | .wrmc _ _ => 0x0F#8
  | .wrmr _ _ => 0x10#8
  | .illegal00 _ _ => 0x00#8
  | .illegal05 _ _ => 0x05#8
  | .illegal06 _ lo _ => illegalFc 0x06#8 lo
  | .illegal08 _ lo _ => illegalFc 0x08#8 lo
  | .illegal0C _ lo _ => illegalFc 0x0C#8 lo
  | .illegal0E _ _ => 0x0E#8
  | .illegal11 _ _ => 0x11#8
  | .illegal12 _ lo _ => illegalFc 0x12#8 lo
  | .illegal14 _ lo _ => illegalFc 0x14#8 lo
  | .illegal18 _ lo _ => illegalFc 0x18#8 lo
  | .illegal20 _ lo _ => illegalFc 0x20#8 lo
  | .illegal40 _ lo _ => illegalFc 0x40#8 lo
  | .illegal80 _ lo _ => illegalFc 0x80#8 lo

/-- The Frame of an identity, a function code and Data. -/
def Ident.frame (q : Ident) (fc : Byte) (data : List Byte) : Frame :=
  { head := q.head, unit := q.unit, fc := fc, data := data }

/-- The Request an instruction stands for (R26). -/
def Instr.toRequest (i : Instr) : Request :=
  { frame := i.ident.frame i.fc i.data, origin := i.origin }

/-- The bytes an RTU checksum is computed over: UnitId to the end of Data (R94). -/
def rtuBody (f : Frame) : List Byte := [f.unit, f.fc] ++ f.data

end Sys2Proof
end

