-- ==== Sys2Proof/WellFormed.lean ====
section
/-! DEFINITION. Well-formedness: which Frames a decoder can have produced on which transport (spec/30_encoding.md R90, R93,
R94; spec/41_frame_codec.md R143, R144, R150). Nothing is asked of the payload: a payload that does not suit its function
code is well formed and is answered with an exception (R142). -/

namespace Sys2Proof

/-- A Request that a decoder can have produced: the Frame's kind is its transport's (R90, R141), its Data has a length the
format can carry, and an RTU Frame carries the checksum it was accepted with (R94, R144). -/
def Request.wellFormed (r : Request) : Bool :=
  match r.origin, r.frame.head with
  | .tcp _, .tcp _ _ => decide (r.frame.data.length ≤ Config.tcpMaxData)
  | .serial _, .rtu crc =>
    decide (1 ≤ r.frame.data.length) && decide (crc = some (Machine.crc16 (rtuBody r.frame)))
  | _, _ => false

/-- A well-formed instruction is one that stands for a well-formed Request. -/
def Instr.wellFormed (i : Instr) : Bool := i.toRequest.wellFormed

end Sys2Proof
end

