-- ==== Sys2Proof/Decode.lean ====
section
/-! DEFINITION. The codec (spec/41_frame_codec.md R140 to R146) and the function-code table (spec/30_encoding.md R102 to
R104): first the decoder, total on any bytes and rejecting by name, then the encoder. -/

namespace Sys2Proof

open Machine

/-- Why a decode attempt fails (spec/60_exceptions.md R221, R222). It never leaves the reading step. -/
inductive DecodeError where
  /-- Too few bytes, or a Length field that disagrees with them (R221). -/
  | malformedFrame
  /-- The trailing checksum is not that of the bytes before it (R222). -/
  | checksumMismatch
deriving DecidableEq, Repr

/-- `DecodeTCP(b)` (R143), by the offsets of R91. -/
def decodeTcp (b : List Byte) : Except DecodeError Frame :=
  if b.length < Config.tcpMin then .error .malformedFrame
  else if (u16be (byteAt b 4) (byteAt b 5)).toNat ≠ b.length - 6 then .error .malformedFrame
  else .ok
    { head := .tcp (u16be (byteAt b 0) (byteAt b 1)) (u16be (byteAt b 2) (byteAt b 3))
      unit := byteAt b 6
      fc := byteAt b 7
      data := b.drop 8 }

/-- `DecodeRTU(b)` (R144), by the offsets of R94: the length is tested before the checksum (R230). -/
def decodeRtu (b : List Byte) : Except DecodeError Frame :=
  if b.length < Config.rtuMin then .error .malformedFrame
  else
    let n := b.length
    let got := u16le (byteAt b (n - 2)) (byteAt b (n - 1))
    if got ≠ crc16 (b.take (n - 2)) then .error .checksumMismatch
    else .ok
      { head := .rtu (some got)
        unit := byteAt b 0
        fc := byteAt b 1
        data := (b.take (n - 2)).drop 2 }

/-- `Decode(t, b)` (R141): the transport alone chooses the format (R90). -/
def decodeFrame (t : Transport) (b : List Byte) : Except DecodeError Frame :=
  match t with
  | .tcp _ => decodeTcp b
  | .serial _ => decodeRtu b

/-- The identity of a Request. -/
def Request.ident (r : Request) : Ident :=
  { head := r.frame.head, unit := r.frame.unit, origin := r.origin }

/-- The row of the opcode table that a function code matches, each test the row's `fc & mask = match` (R102 to R104, R182).
No other byte takes part. The last row has no test, since the others leave only 0x80 to 0xFF. -/
def instrOfParts (q : Ident) (fc : Byte) (data : List Byte) : Instr :=
  if fc = 0x01#8 then .rdco q data
  else if fc = 0x02#8 then .rddi q data
  else if fc = 0x03#8 then .rdhr q data
  else if fc = 0x04#8 then .rdir q data
  else if fc = 0x0F#8 then .wrmc q data
  else if fc = 0x10#8 then .wrmr q data
  else if fc = 0x00#8 then .illegal00 q data
  else if fc = 0x05#8 then .illegal05 q data
  else if fc &&& 0xFE#8 = 0x06#8 then .illegal06 q (fc.setWidth 1) data
  else if fc &&& 0xFC#8 = 0x08#8 then .illegal08 q (fc.setWidth 2) data
  else if fc &&& 0xFE#8 = 0x0C#8 then .illegal0C q (fc.setWidth 1) data
  else if fc = 0x0E#8 then .illegal0E q data
  else if fc = 0x11#8 then .illegal11 q data
  else if fc &&& 0xFE#8 = 0x12#8 then .illegal12 q (fc.setWidth 1) data
  else if fc &&& 0xFC#8 = 0x14#8 then .illegal14 q (fc.setWidth 2) data
  else if fc &&& 0xF8#8 = 0x18#8 then .illegal18 q (fc.setWidth 3) data
  else if fc &&& 0xE0#8 = 0x20#8 then .illegal20 q (fc.setWidth 5) data
  else if fc &&& 0xC0#8 = 0x40#8 then .illegal40 q (fc.setWidth 6) data
  else .illegal80 q (fc.setWidth 7) data

/-- The instruction a Request is (R182). -/
def instrOf (r : Request) : Instr := instrOfParts r.ident r.frame.fc r.frame.data

/-- The decoder: the bytes one transport produced, as an instruction or as a decode error (R141, R142). -/
def decode (t : Transport) (b : List Byte) : Except DecodeError Instr :=
  match decodeFrame t b with
  | .ok f => .ok (instrOf { frame := f, origin := t })
  | .error e => .error e

/-- The TCP ADU of a Frame's fields, Length computed from the payload (R145, R91, R93). -/
def tcpAdu (txn proto : Word) (unit fc : Byte) (data : List Byte) : List Byte :=
  wordBytes txn ++ wordBytes proto ++ wordBytes (BitVec.ofNat 16 (2 + data.length)) ++ [unit, fc] ++ data

/-- A checksum word's bytes as sent, low byte first (R61). -/
def crcBytes (c : Word) : List Byte := [lo8 c, hi8 c]

/-- `EncodeRTU(f)` (R146): the checksum is computed afresh, whatever `crc` the Frame carries. -/
def encodeRtu (f : Frame) : List Byte := rtuBody f ++ crcBytes (crc16 (rtuBody f))

/-- `Encode(f)` (R140): `EncodeTCP` of a TCP Frame (R145), which is refused (`none`) when Data exceeds 65533 bytes, and
`EncodeRTU` of an RTU Frame (R146). -/
def encodeFrame (f : Frame) : Option (List Byte) :=
  match f.head with
  | .tcp txn proto =>
    if f.data.length ≤ Config.tcpMaxData then some (tcpAdu txn proto f.unit f.fc f.data) else none
  | .rtu _ => some (encodeRtu f)

/-- The encoder: the ADU of an instruction, `none` where EncodeTCP is outside its domain (R145). -/
def encode (i : Instr) : Option (List Byte) := encodeFrame i.toRequest.frame

/-- The fewest operand bytes of a function code's request format (R106 to R108, R104). -/
def operandFloor (fc : Byte) : Nat :=
  if fc = 0x01#8 ∨ fc = 0x02#8 ∨ fc = 0x03#8 ∨ fc = 0x04#8 then 4
  else if fc = 0x0F#8 ∨ fc = 0x10#8 then 5
  else 0

/-- The `n` lowest bytes of a number, the lowest first. -/
def lowBytes : Nat → Nat → List Byte
  | 0, _ => []
  | n + 1, w => BitVec.ofNat 8 w :: lowBytes n (w / 256)

/-- The PDU whose bits are `w`, padded with zero bytes to its format's operands (log 19). -/
def tablePdu (nbits w : Nat) : List Byte :=
  let fc : Byte := BitVec.ofNat 8 w
  let given := lowBytes (nbits / 8 - 1) (w / 256)
  fc :: (given ++ List.replicate (operandFloor fc - given.length) 0#8)

/-- That PDU in a TCP ADU with every header field and the unit id 0 (log 19). -/
def tableAdu (nbits w : Nat) : List Byte :=
  let pdu := tablePdu nbits w
  [0#8, 0#8, 0#8, 0#8] ++ wordBytes (BitVec.ofNat 16 (1 + pdu.length)) ++ [0#8] ++ pdu

/-- The transport `tableAdu` is read on (log 19). -/
def tableTransport : Transport := .tcp 0

/-- What the decoder reads from the opcode-table word `w` (log 19). -/
def decodeTableWord (nbits w : Nat) : Option Instr :=
  match decode tableTransport (tableAdu nbits w) with
  | .ok i => some i
  | .error _ => none

end Sys2Proof
end

