-- ==== Sys2Proof/Machine/Flags.lean ====
section
/-! DEFINITION. What plays the part of flags (spec/10_state.md R34): the handler outcome and the exception bit of a Response's
function code. The third, the decode status, is `DecodeError` of Sys2Proof/Decode.lean. None outlives its step. -/

namespace Sys2Proof.Machine

/-- The protocol exceptions (spec/30_encoding.md R112; spec/60_exceptions.md R225 to R227). -/
inductive ExcCode where
  | illegalFunction
  /-- Kept because the spec names it; no rule raises it (R227). -/
  | illegalDataAddress
  | illegalDataValue
deriving DecidableEq, Repr

/-- The code byte on the wire (R112). -/
def excByte : ExcCode → Byte
  | .illegalFunction => 0x01#8
  | .illegalDataAddress => 0x02#8
  | .illegalDataValue => 0x03#8

/-- The handler outcome: a success payload or one exception code (spec/43_dispatcher.md R183). -/
inductive HandlerOutcome where
  | success (payload : List Byte)
  | exception (code : ExcCode)
deriving DecidableEq, Repr

/-- The function code of an Exception Frame, `fc | 0x80` (spec/30_encoding.md R101, R112). -/
def exceptionFc (fc : Byte) : Byte := fc ||| 0x80#8

end Sys2Proof.Machine
end

