-- ==== Sys2Proof/Machine/State.lean ====
section
/-! DEFINITION. The machine's state (spec/10_state.md R20 to R42), the actions that move it, and the reasons to stop. -/

namespace Sys2Proof.Machine

/-- A register bank: the elements that are not 0, as (address, value) in rising order of address. An unlisted
address reads 0, which is the reset value (spec/10_state.md R39; spec/20_memory.md R69; log 12). -/
abbrev Bank (α : Type) := List (Nat × α)

/-- The banks of bits (R20, R21). -/
inductive BitBank where
  | co
  | di
deriving DecidableEq, Repr

/-- The banks of words (R22, R23). -/
inductive WordBank where
  | hr
  | ir
deriving DecidableEq, Repr

/-- What a device's `Read` returns (spec/60_exceptions.md R240). End of stream is an error. -/
inductive ReadAnswer where
  | bytes (rd : List Byte)
  | error
deriving DecidableEq, Repr

/-- What a device's `Write` returns (R241). -/
inductive WriteAnswer where
  | ok
  | error
deriving DecidableEq, Repr

/-- One atomic step of one agent, with what the outside answers it (spec/00_scope.md R5). -/
inductive Action where
  /-- `SR[p]` or `TC[c]` calls `Read` and treats its result (spec/42_reassembler.md R161, R171). -/
  | read (t : Transport) (a : ReadAnswer)
  /-- A transport task moves its pending Request to the tail of `RQ` (R168). -/
  | enqueue (t : Transport)
  /-- `DP` dispatches the head of `RQ` (spec/43_dispatcher.md R180); `w` is what `Write` returns (R241). -/
  | dispatch (w : WriteAnswer)
  /-- The host opens the next serial port (spec/70_reset_and_hazards.md R262). -/
  | openSerial
  /-- The listener hands over a new TCP connection (spec/60_exceptions.md R242). -/
  | accept
  /-- `HostPeek` of a bit bank (R237). -/
  | peekBit (b : BitBank) (a : Nat)
  /-- `HostPeek` of a word bank (R237). -/
  | peekWord (b : WordBank) (a : Nat)
  /-- `HostPoke` of a bit bank (R237). -/
  | pokeBit (b : BitBank) (a : Nat) (v : Bool)
  /-- `HostPoke` of a word bank (R237). -/
  | pokeWord (b : WordBank) (a : Nat) (v : Word)
  /-- The host sets `shutdown` (R238). -/
  | raiseShutdown
  /-- The Server is destroyed (spec/70_reset_and_hazards.md R264). -/
  | destroy
deriving DecidableEq, Repr

/-- What a `HostPeek` returned (R237). -/
inductive Peek where
  | bit (v : Bool)
  | word (v : Word)
deriving DecidableEq, Repr

/-- What every transport has. -/
structure Link where
  /-- `open[t]` (R29). -/
  isOpen : Bool
  /-- The MODEL's own: a `Read` issued before shutdown was raised is still in progress
  (spec/42_reassembler.md R170; U3; log 5). -/
  inRead : Bool
  /-- `PEND[t]` (R42). -/
  pend : Option Request
  /-- `TX[t]`, the earliest first (R31). -/
  tx : List (List Byte)
deriving DecidableEq, Repr

/-- A serial port (R28). -/
structure Port where
  link : Link
  /-- `RXBUF[p]` (R28). -/
  rxbuf : List Byte
deriving DecidableEq, Repr

/-- A transport that has just been opened (R39). -/
def Link.fresh : Link := { isOpen := true, inRead := false, pend := none, tx := [] }

/-- A serial port that has just been opened (R39). -/
def Port.fresh : Port := { link := Link.fresh, rxbuf := [] }

/-- The whole state. -/
structure State where
  /-- Coils (R20). -/
  co : Bank Bool
  /-- Discrete Inputs (R21). -/
  di : Bank Bool
  /-- Holding Registers (R22). -/
  hr : Bank Word
  /-- Input Registers (R23). -/
  ir : Bank Word
  /-- The serial ports opened so far, the first of the ports `0 .. N_SERIAL - 1` (R28; log 11). -/
  ports : List Port
  /-- TCP connections, in the order the listener handed them over; a closed one keeps its place (R29; log 11). -/
  conns : List Link
  /-- `RQ`, the head first (R30). -/
  rq : List Request
  /-- `shutdown` (R32). -/
  shutdown : Bool
  /-- The Server exists (R41; log 8). -/
  alive : Bool
  /-- `READ_MAX`, a parameter of the instance (spec/00_scope.md R7): no step changes it (log 10). -/
  readMax : Nat
  /-- `QUEUE_DEPTH`, a parameter of the instance (R7): no step changes it (log 10). -/
  queueDepth : Nat
  /-- `N_SERIAL`, a parameter of the instance (R7, R28): how many serial ports the host opens. No step changes it
  (log 10, log 11). -/
  nSerial : Nat
  /-- The MODEL's own: the steps to come, with the outside's answers (R72, R73; log 2). -/
  agenda : List Action
  /-- The MODEL's own: the device's answer to the `Write` of a dispatch step (R241; log 6). -/
  writeAnswer : WriteAnswer
  /-- The MODEL's own: the values returned to the host, the earliest first (R237; log 7). -/
  peeks : List Peek
deriving DecidableEq, Repr

/-- The machine right after reset, which is the creation of the Server (spec/10_state.md R39;
spec/70_reset_and_hazards.md R260). The parameters are open constants (log 10), and the last three fields are the
model's own (log 2, log 6, log 7). -/
def State.reset : State where
  co := []
  di := []
  hr := []
  ir := []
  ports := []
  conns := []
  rq := []
  shutdown := false
  alive := true
  readMax := Config.readMax
  queueDepth := Config.queueDepth
  nSerial := Config.nSerial
  agenda := []
  writeAnswer := .ok
  peeks := []

/-- Faults: none. Nothing stops this machine (spec/43_dispatcher.md R196; spec/60_exceptions.md R220, R228), so nobody raises
one, which is safe (log 13). -/
inductive Fault where
deriving DecidableEq, Repr

/-- Refusals: operations outside their stated domain (spec/60_exceptions.md R220, last row). -/
inductive Refusal where
  /-- Raised by an arm of `exec` for an instruction without a meaning; no arm raises it. Safe. -/
  | notModelled (mnemonic : String)
  /-- Raised by `sendFrame` when a TCP Frame's Data exceeds 65533 bytes (spec/41_frame_codec.md R145; log 15). No
  Response is that long. Safe. -/
  | encodeTcpTooLong
  /-- Raised by `payloadV` when `len(values) != count` or `count > 127` (R152; log 15). No step calls it. Safe. -/
  | payloadVPrecondition
  /-- Raised by `payloadCoils` when the packed bytes are not `ceil8(count)` many or are more than 255
  (spec/30_encoding.md R107; spec/41_frame_codec.md R153; log 15). No step calls it. Safe. -/
  | payloadCoilsShape
deriving DecidableEq, Repr

/-- The outcome of a step. -/
abbrev Result := Host.Outcome State Fault Refusal

/-- The canonical form of a bank from address `lo` on: addresses rise strictly, lie below 65536, and no entry holds the
value `d` an unlisted address reads. -/
def bankWfFrom {α : Type} [DecidableEq α] (d : α) : Nat → Bank α → Bool
  | _, [] => true
  | lo, (k, v) :: m => decide (lo ≤ k) && decide (k < Config.bankCap) && decide (v ≠ d) && bankWfFrom d (k + 1) m

/-- The canonical form of a bank. -/
def bankWf {α : Type} [DecidableEq α] (d : α) (m : Bank α) : Bool := bankWfFrom d 0 m

/-- The four banks are in canonical form. -/
def Memory.wf (s : State) : Bool :=
  bankWf false s.co && bankWf false s.di && bankWf 0#16 s.hr && bankWf 0#16 s.ir

end Sys2Proof.Machine
end

