-- ==== Sys2Proof/Machine/Ops.lean ====
section
/-! DEFINITION. The named operations over banks, transports and the queue, the building and sending of a Response, and
taking an exception (spec/44_register_store.md R210 to R214; spec/10_state.md R29 to R31; spec/41_frame_codec.md R147,
R148; spec/43_dispatcher.md R192 to R195; spec/60_exceptions.md R233). -/

namespace Sys2Proof.Machine

/-- Element `a` of a bank; `d` is what an unlisted address reads. -/
def bankGet {α : Type} (d : α) : Bank α → Nat → α
  | [], _ => d
  | (k, v) :: m, a => if a = k then v else bankGet d m a

/-- The bank with element `a` set to `v`, in canonical form again. -/
def bankPut {α : Type} [DecidableEq α] (d : α) : Bank α → Nat → α → Bank α
  | [], a, v => if v = d then [] else [(a, v)]
  | (k, w) :: m, a, v =>
    if a < k then (if v = d then (k, w) :: m else (a, v) :: (k, w) :: m)
    else if a = k then (if v = d then m else (a, v) :: m)
    else (k, w) :: bankPut d m a v

/-- The address of an element: addresses are taken modulo 65536 (R214). -/
def wrap (a : Nat) : Nat := a % Config.bankCap

/-- A bit bank's contents. -/
def State.bits (s : State) : BitBank → Bank Bool
  | .co => s.co
  | .di => s.di

/-- A word bank's contents. -/
def State.words (s : State) : WordBank → Bank Word
  | .hr => s.hr
  | .ir => s.ir

/-- The state with a bit bank's contents replaced. -/
def State.setBits (s : State) (b : BitBank) (m : Bank Bool) : State :=
  match b with
  | .co => { s with co := m }
  | .di => { s with di := m }

/-- The state with a word bank's contents replaced. -/
def State.setWords (s : State) (b : WordBank) (m : Bank Word) : State :=
  match b with
  | .hr => { s with hr := m }
  | .ir => { s with ir := m }

/-- `BankReadBit(B, a)` (R210). -/
def bankReadBit (s : State) (b : BitBank) (a : Nat) : Bool := bankGet false (s.bits b) (wrap a)

/-- `BankReadWord(B, a)` (R211). -/
def bankReadWord (s : State) (b : WordBank) (a : Nat) : Word := bankGet 0#16 (s.words b) (wrap a)

/-- `BankWriteBit(B, a, v)` (R212). -/
def bankWriteBit (s : State) (b : BitBank) (a : Nat) (v : Bool) : State :=
  s.setBits b (bankPut false (s.bits b) (wrap a) v)

/-- `BankWriteWord(B, a, v)` (R213). -/
def bankWriteWord (s : State) (b : WordBank) (a : Nat) (v : Word) : State :=
  s.setWords b (bankPut 0#16 (s.words b) (wrap a) v)

/-- Element `i` of a request that starts at `addr` (R214), before `wrap`: the sum is taken in the integers. -/
def elemAddr (addr : Word) (i : Nat) : Nat := addr.toNat + i

/-- Elements `addr` to `addr + n - 1` of a bit bank written in ascending order with the values `f 0 .. f (n - 1)` (R189). -/
def writeBitRun (b : BitBank) (addr : Word) (f : Nat → Bool) : Nat → State → State
  | 0, s => s
  | n + 1, s => bankWriteBit (writeBitRun b addr f n s) b (elemAddr addr n) (f n)

/-- Elements `addr` to `addr + n - 1` of a word bank written in ascending order with the values `f 0 .. f (n - 1)` (R190). -/
def writeWordRun (b : WordBank) (addr : Word) (f : Nat → Word) : Nat → State → State
  | 0, s => s
  | n + 1, s => bankWriteWord (writeWordRun b addr f n s) b (elemAddr addr n) (f n)

/-- The link of a transport, if the transport exists. -/
def State.link? (s : State) : Transport → Option Link
  | .serial p => s.ports[p]?.map Port.link
  | .tcp c => s.conns[c]?

/-- The state with one transport's link changed by `f`; nothing changes if the transport does not exist. -/
def State.modLink (s : State) (t : Transport) (f : Link → Link) : State :=
  match t with
  | .serial p => { s with ports := s.ports.modify p fun q => { q with link := f q.link } }
  | .tcp c => { s with conns := s.conns.modify c f }

/-- `open[t]` (R29): 0 for a transport that does not exist (R39). -/
def State.isOpen (s : State) (t : Transport) : Bool := (s.link? t).any Link.isOpen

/-- `TX[t]` (R31): nothing for a transport that does not exist (R39). -/
def State.txOf (s : State) (t : Transport) : List (List Byte) :=
  match s.link? t with
  | some l => l.tx
  | none => []

/-- `PEND[t]` (R42): none for a transport that does not exist (R39). -/
def State.pendOf (s : State) (t : Transport) : Option Request := (s.link? t).bind Link.pend

/-- Whether a `Read` of a transport issued before shutdown was raised is still in progress
(spec/42_reassembler.md R170; log 5). -/
def State.inReadOf (s : State) (t : Transport) : Bool := (s.link? t).any Link.inRead

/-- `RXBUF[p]` (R28): empty for a port that does not exist (R39). -/
def State.rxbufOf (s : State) (p : Nat) : List Byte :=
  match s.ports[p]? with
  | some q => q.rxbuf
  | none => []

/-- The header of a Response: `txn` and `proto` kept (R147); no checksum before it is encoded. -/
def responseHeader : Header → Header
  | .tcp txn proto => .tcp txn proto
  | .rtu _ => .rtu none

/-- `BuildResponse(req, payload)` (R147). -/
def buildResponse (req : Frame) (payload : List Byte) : Frame :=
  { head := responseHeader req.head, unit := req.unit, fc := req.fc, data := payload }

/-- `BuildException(req, code)` (R148). -/
def buildException (req : Frame) (code : ExcCode) : Frame :=
  { buildResponse req [excByte code] with fc := exceptionFc req.fc }

/-- `Transmit(t, bytes)` (R194): the ADU is appended to `TX[t]`; it is lost if the device reports an error or the transport
is closed (R195). -/
def transmit (t : Transport) (adu : List Byte) (s : State) : State :=
  if s.isOpen t ∧ s.writeAnswer = .ok then s.modLink t fun l => { l with tx := l.tx ++ [adu] } else s

/-- A Response encoded and transmitted (R180, last line). EncodeTCP refuses what it cannot encode (R145). -/
def sendFrame (t : Transport) (resp : Frame) (s : State) : Result :=
  match encodeFrame resp with
  | some adu => .next (transmit t adu s)
  | none => .refused .encodeTcpTooLong

/-- TAKING AN EXCEPTION (R193, R233): the Exception Frame goes to the transport the Request came from. Nothing is saved and
no bank changes. There is no return from an exception (R234), so there is no operation for it. -/
def takeException (t : Transport) (req : Frame) (code : ExcCode) (s : State) : Result :=
  sendFrame t (buildException req code) s

/-- The end of a dispatch step: the handler's outcome becomes the one Response (R180, R192, R193). -/
def finish (t : Transport) (req : Frame) (r : HandlerOutcome × State) : Result :=
  match r.1 with
  | .success payload => sendFrame t (buildResponse req payload) r.2
  | .exception code => takeException t req code r.2

/-- The tail of `RQ` (R30). -/
def enqueueRequest (r : Request) (s : State) : State := { s with rq := s.rq ++ [r] }

end Sys2Proof.Machine
end

