-- ==== Sys2Proof/Machine/Illegal.lean ====
section
/-! DEFINITION. Every other function code (spec/43_dispatcher.md R191): one definition per row of the opcode table, each
taking `IllegalFunction`. Data is not examined. -/

namespace Sys2Proof.Machine

/-- The shared meaning of the illegal space (R191, R225). -/
def illegalFunction (q : Ident) (fc : Byte) (data : List Byte) (s : State) : Result :=
  takeException q.origin (q.frame fc data) .illegalFunction s

/-- `ILLEGAL`, row 0x00 (R191). -/
def execIllegal00 (q : Ident) (data : List Byte) (s : State) : Result :=
  illegalFunction q 0x00#8 data s

/-- `ILLEGAL`, row 0x05 (R191). -/
def execIllegal05 (q : Ident) (data : List Byte) (s : State) : Result :=
  illegalFunction q 0x05#8 data s

/-- `ILLEGAL`, row 0x06 (R191). -/
def execIllegal06 (q : Ident) (lo : BitVec 1) (data : List Byte) (s : State) : Result :=
  illegalFunction q (illegalFc 0x06#8 lo) data s

/-- `ILLEGAL`, row 0x08 (R191). -/
def execIllegal08 (q : Ident) (lo : BitVec 2) (data : List Byte) (s : State) : Result :=
  illegalFunction q (illegalFc 0x08#8 lo) data s

/-- `ILLEGAL`, row 0x0C (R191). -/
def execIllegal0C (q : Ident) (lo : BitVec 1) (data : List Byte) (s : State) : Result :=
  illegalFunction q (illegalFc 0x0C#8 lo) data s

/-- `ILLEGAL`, row 0x0E (R191). -/
def execIllegal0E (q : Ident) (data : List Byte) (s : State) : Result :=
  illegalFunction q 0x0E#8 data s

/-- `ILLEGAL`, row 0x11 (R191). -/
def execIllegal11 (q : Ident) (data : List Byte) (s : State) : Result :=
  illegalFunction q 0x11#8 data s

/-- `ILLEGAL`, row 0x12 (R191). -/
def execIllegal12 (q : Ident) (lo : BitVec 1) (data : List Byte) (s : State) : Result :=
  illegalFunction q (illegalFc 0x12#8 lo) data s

/-- `ILLEGAL`, row 0x14 (R191). -/
def execIllegal14 (q : Ident) (lo : BitVec 2) (data : List Byte) (s : State) : Result :=
  illegalFunction q (illegalFc 0x14#8 lo) data s

/-- `ILLEGAL`, row 0x18 (R191). -/
def execIllegal18 (q : Ident) (lo : BitVec 3) (data : List Byte) (s : State) : Result :=
  illegalFunction q (illegalFc 0x18#8 lo) data s

/-- `ILLEGAL`, row 0x20 (R191). -/
def execIllegal20 (q : Ident) (lo : BitVec 5) (data : List Byte) (s : State) : Result :=
  illegalFunction q (illegalFc 0x20#8 lo) data s

/-- `ILLEGAL`, row 0x40 (R191). -/
def execIllegal40 (q : Ident) (lo : BitVec 6) (data : List Byte) (s : State) : Result :=
  illegalFunction q (illegalFc 0x40#8 lo) data s

/-- `ILLEGAL`, row 0x80 (R191). -/
def execIllegal80 (q : Ident) (lo : BitVec 7) (data : List Byte) (s : State) : Result :=
  illegalFunction q (illegalFc 0x80#8 lo) data s

end Sys2Proof.Machine
end

