-- ==== Sys2Proof/Machine/Operands.lean ====
section
/-! DEFINITION. The payload formats (spec/30_encoding.md R105 to R111) and the checks every handler makes on its Data
(spec/43_dispatcher.md R183). -/

namespace Sys2Proof.Machine

/-- `addr = u16be(data[0], data[1])` (R105). -/
def addrOf (data : List Byte) : Word := u16be (byteAt data 0) (byteAt data 1)

/-- `count = u16be(data[2], data[3])` (R105). -/
def countOf (data : List Byte) : Nat := (u16be (byteAt data 2) (byteAt data 3)).toNat

/-- `RQ_READ` with the checks of R183 for a read: the address and the count, or `IllegalDataValue` (R106, R226). -/
def readOperands (max : Nat) (data : List Byte) : Except ExcCode (Word × Nat) :=
  if data.length ≠ 4 then .error .illegalDataValue
  else if countOf data < 1 ∨ max < countOf data then .error .illegalDataValue
  else .ok (addrOf data, countOf data)

/-- `RQ_WBITS` and `RQ_WREGS` with the checks of R183 for a write, in its order; `bytes count` is the byteCount the format
asks for (R107, R108, R226). -/
def writeOperands (max : Nat) (bytes : Nat → Nat) (data : List Byte) : Except ExcCode (Word × Nat) :=
  if data.length < 5 then .error .illegalDataValue
  else if countOf data < 1 ∨ max < countOf data then .error .illegalDataValue
  else if (byteAt data 4).toNat ≠ bytes (countOf data) ∨ data.length ≠ 5 + bytes (countOf data) then
    .error .illegalDataValue
  else .ok (addrOf data, countOf data)

/-- Coil value `i` of `RQ_WBITS`: bit `i mod 8` of packed byte `i div 8` (R107, R63). -/
def coilOperand (data : List Byte) (i : Nat) : Bool := (byteAt data (5 + i / 8)).getLsbD (i % 8)

/-- Register value `i` of `RQ_WREGS` (R108). -/
def regOperand (data : List Byte) (i : Nat) : Word := u16be (byteAt data (5 + 2 * i)) (byteAt data (6 + 2 * i))

/-- Packed byte `k` of `count` bits: bit `j` is element `8k + j`, and 0 beyond the count (R109, R63). -/
def packByte (count : Nat) (f : Nat → Bool) (k : Nat) : Byte :=
  (List.range 8).foldl
    (fun acc j => if 8 * k + j < count ∧ f (8 * k + j) then acc ||| (1#8 <<< j) else acc) 0#8

/-- `RS_BITS`: the byteCount, then the packed bytes (R109). -/
def bitsPayload (count : Nat) (f : Nat → Bool) : List Byte :=
  countByte (ceil8 count) :: (List.range (ceil8 count)).map (packByte count f)

/-- `RS_REGS`: the byteCount, then each register high byte first (R110). -/
def regsPayload (count : Nat) (f : Nat → Word) : List Byte :=
  countByte (2 * count) :: (List.range count).flatMap fun i => wordBytes (f i)

/-- `RS_WRITE`: the first four bytes of the request Data (R111). -/
def writePayload (data : List Byte) : List Byte := data.take 4

end Sys2Proof.Machine
end

