-- ==== Sys2Proof/Machine/Reads.lean ====
section
/-! DEFINITION. The read functions (spec/43_dispatcher.md R185 to R188). -/

namespace Sys2Proof.Machine

/-- The handler of a bit read over one bank (R185, R186). It writes no state. -/
def handleReadBits (b : BitBank) (data : List Byte) (s : State) : HandlerOutcome × State :=
  match readOperands Config.maxReadBits data with
  | .error code => (.exception code, s)
  | .ok (addr, count) => (.success (bitsPayload count fun i => bankReadBit s b (elemAddr addr i)), s)

/-- The handler of a register read over one bank (R187, R188). It writes no state. -/
def handleReadRegs (b : WordBank) (data : List Byte) (s : State) : HandlerOutcome × State :=
  match readOperands Config.maxReadRegs data with
  | .error code => (.exception code, s)
  | .ok (addr, count) => (.success (regsPayload count fun i => bankReadWord s b (elemAddr addr i)), s)

/-- `RDCO` (R185). -/
def execRdco (q : Ident) (data : List Byte) (s : State) : Result :=
  finish q.origin (q.frame 0x01#8 data) (handleReadBits .co data s)

/-- `RDDI` (R186). -/
def execRddi (q : Ident) (data : List Byte) (s : State) : Result :=
  finish q.origin (q.frame 0x02#8 data) (handleReadBits .di data s)

/-- `RDHR` (R187). -/
def execRdhr (q : Ident) (data : List Byte) (s : State) : Result :=
  finish q.origin (q.frame 0x03#8 data) (handleReadRegs .hr data s)

/-- `RDIR` (R188). -/
def execRdir (q : Ident) (data : List Byte) (s : State) : Result :=
  finish q.origin (q.frame 0x04#8 data) (handleReadRegs .ir data s)

end Sys2Proof.Machine
end

