-- ==== Sys2Proof/Machine/Writes.lean ====
section
/-! DEFINITION. The write functions (spec/43_dispatcher.md R189, R190). -/

namespace Sys2Proof.Machine

/-- The handler of `WRMC` (R189). Every check stands before the first write (R183). -/
def handleWriteCoils (data : List Byte) (s : State) : HandlerOutcome × State :=
  match writeOperands Config.maxWriteBits ceil8 data with
  | .error code => (.exception code, s)
  | .ok (addr, count) => (.success (writePayload data), writeBitRun .co addr (coilOperand data) count s)

/-- The handler of `WRMR` (R190). Every check stands before the first write (R183). -/
def handleWriteRegs (data : List Byte) (s : State) : HandlerOutcome × State :=
  match writeOperands Config.maxWriteRegs (2 * ·) data with
  | .error code => (.exception code, s)
  | .ok (addr, count) => (.success (writePayload data), writeWordRun .hr addr (regOperand data) count s)

/-- `WRMC` (R189). -/
def execWrmc (q : Ident) (data : List Byte) (s : State) : Result :=
  finish q.origin (q.frame 0x0F#8 data) (handleWriteCoils data s)

/-- `WRMR` (R190). -/
def execWrmr (q : Ident) (data : List Byte) (s : State) : Result :=
  finish q.origin (q.frame 0x10#8 data) (handleWriteRegs data s)

end Sys2Proof.Machine
end

