-- ==== Sys2Proof/Machine/Dispatch.lean ====
section
/-! DEFINITION. The handler table (spec/43_dispatcher.md R182): one arm per constructor of Instr. -/

namespace Sys2Proof.Machine

def exec (i : Instr) (s : State) : Host.Outcome State Fault Refusal :=
  match i with
  | .rdco q data => Sys2Proof.Machine.execRdco q data s
  | .rddi q data => Sys2Proof.Machine.execRddi q data s
  | .rdhr q data => Sys2Proof.Machine.execRdhr q data s
  | .rdir q data => Sys2Proof.Machine.execRdir q data s
  | .wrmc q data => Sys2Proof.Machine.execWrmc q data s
  | .wrmr q data => Sys2Proof.Machine.execWrmr q data s
  | .illegal00 q data => Sys2Proof.Machine.execIllegal00 q data s
  | .illegal05 q data => Sys2Proof.Machine.execIllegal05 q data s
  | .illegal06 q lo data => Sys2Proof.Machine.execIllegal06 q lo data s
  | .illegal08 q lo data => Sys2Proof.Machine.execIllegal08 q lo data s
  | .illegal0C q lo data => Sys2Proof.Machine.execIllegal0C q lo data s
  | .illegal0E q data => Sys2Proof.Machine.execIllegal0E q data s
  | .illegal11 q data => Sys2Proof.Machine.execIllegal11 q data s
  | .illegal12 q lo data => Sys2Proof.Machine.execIllegal12 q lo data s
  | .illegal14 q lo data => Sys2Proof.Machine.execIllegal14 q lo data s
  | .illegal18 q lo data => Sys2Proof.Machine.execIllegal18 q lo data s
  | .illegal20 q lo data => Sys2Proof.Machine.execIllegal20 q lo data s
  | .illegal40 q lo data => Sys2Proof.Machine.execIllegal40 q lo data s
  | .illegal80 q lo data => Sys2Proof.Machine.execIllegal80 q lo data s

end Sys2Proof.Machine
end

