-- ==== Sys2Proof/Machine/Agents.lean ====
section
/-! DEFINITION. The steps of the agents (spec/42_reassembler.md R160 to R173; spec/43_dispatcher.md R180, R197;
spec/60_exceptions.md R236 to R242; spec/70_reset_and_hazards.md R262 to R264). A step that is not enabled leaves the
state as it is: the agent waits (log 3). -/

namespace Sys2Proof.Machine

/-- The loop of R164 with the policy `DROP_LEADING` of R165: attempts on the whole buffer, dropping the first byte after
each failure, until one succeeds or fewer than 5 bytes remain. -/
def reassemble : List Byte → Option Frame × List Byte
  | [] => (none, [])
  | b :: bs =>
    if (b :: bs).length < Config.rtuMin then (none, b :: bs)
    else
      match decodeRtu (b :: bs) with
      | .ok f => (some f, [])
      | .error _ => reassemble bs

/-- The read step of a transport task is enabled: the transport is open, no Request is pending, and shutdown was not
raised before the read was issued (R161, R168, R170, R171). -/
def canRead (s : State) (l : Link) : Bool :=
  s.alive && l.isOpen && l.pend.isNone && (!s.shutdown || l.inRead)

/-- A `Read` in progress has returned. -/
def Link.readDone (l : Link) : Link := { l with inRead := false }

/-- The link with a Request put into its empty `PEND[t]` (R168). -/
def Link.pending (l : Link) (r : Request) : Link := { l with pend := some r }

/-- The read step of `SR[p]` (R164): an error (R169) and a read of no bytes (R162) change nothing. -/
def serialRead (p : Nat) (a : ReadAnswer) (q : Port) : Port :=
  let q := { q with link := q.link.readDone }
  match a with
  | .error => q
  | .bytes [] => q
  | .bytes rd =>
    match reassemble (q.rxbuf ++ rd) with
    | (some f, rest) => { link := q.link.pending { frame := f, origin := .serial p }, rxbuf := rest }
    | (none, rest) => { q with rxbuf := rest }

/-- The read step of `TC[c]` (R171): an error (R173) and a failed decode (R172) close the connection. -/
def tcpRead (c : Nat) (a : ReadAnswer) (l : Link) : Link :=
  let l := l.readDone
  match a with
  | .error => { l with isOpen := false }
  | .bytes [] => l
  | .bytes rd =>
    match decodeTcp rd with
    | .ok f => l.pending { frame := f, origin := .tcp c }
    | .error _ => { l with isOpen := false }

/-- An answer a device can give: at most `READ_MAX` bytes (R161, R240). -/
def ReadAnswer.possible (max : Nat) : ReadAnswer → Bool
  | .error => true
  | .bytes rd => decide (rd.length ≤ max)

/-- The read step of a transport task (R161, R171). -/
def readStep (t : Transport) (a : ReadAnswer) (s : State) : State :=
  match t with
  | .serial p =>
    match s.ports[p]? with
    | some q =>
      if canRead s q.link && a.possible s.readMax then { s with ports := s.ports.set p (serialRead p a q) } else s
    | none => s
  | .tcp c =>
    match s.conns[c]? with
    | some l => if canRead s l && a.possible s.readMax then { s with conns := s.conns.set c (tcpRead c a l) } else s
    | none => s

/-- The enqueue step of a transport task is enabled: the transport is open, a Request is pending, and `RQ` has room (R168,
R30). -/
def canEnqueue (s : State) (t : Transport) : Bool :=
  s.alive && s.isOpen t && (s.pendOf t).isSome && decide (s.rq.length < s.queueDepth)

/-- The enqueue step of a transport task: `PEND[t]` to the tail of `RQ`, enabled when there is room (R168, R30). -/
def enqueueStep (t : Transport) (s : State) : State :=
  if canEnqueue s t then
    match s.pendOf t with
    | some r => enqueueRequest r (s.modLink t fun l => { l with pend := none })
    | none => s
  else s

/-- The step of the Dispatcher is enabled: `RQ` is not empty and `shutdown = 0` (R180, R197). -/
def canDispatch (s : State) : Bool := s.alive && !s.shutdown && !s.rq.isEmpty

/-- The step of the Dispatcher (R180). -/
def dispatchStep (w : WriteAnswer) (s : State) : Result :=
  if canDispatch s then
    match s.rq with
    | [] => .next s
    | r :: rest => exec (instrOf r) { s with rq := rest, writeAnswer := w }
  else .next s

/-- The host may open a serial port: not all `N_SERIAL` are open (spec/10_state.md R28; spec/00_scope.md R7). -/
def canOpenSerial (s : State) : Bool := s.alive && !s.shutdown && decide (s.ports.length < s.nSerial)

/-- The host opens a serial port, with its own reader and its own empty buffer (R262, R239). -/
def openSerialStep (s : State) : State :=
  if canOpenSerial s then { s with ports := s.ports ++ [Port.fresh] } else s

/-- The listener produces a connection with a fresh name (R242). -/
def acceptStep (s : State) : State :=
  if s.alive && !s.shutdown then { s with conns := s.conns ++ [Link.fresh] } else s

/-- A value is returned to the host (R237). -/
def hostPeek (v : Peek) (s : State) : State :=
  if s.alive then { s with peeks := s.peeks ++ [v] } else s

/-- `HostPoke` on a bit bank (R237). -/
def hostPokeBit (b : BitBank) (a : Nat) (v : Bool) (s : State) : State :=
  if s.alive then bankWriteBit s b a v else s

/-- `HostPoke` on a word bank (R237). -/
def hostPokeWord (b : WordBank) (a : Nat) (v : Word) (s : State) : State :=
  if s.alive then bankWriteWord s b a v else s

/-- When shutdown is raised, the `Read` of a task that is open and has nothing pending may be in progress (R170, U3). -/
def Link.atShutdown (l : Link) : Link := { l with inRead := l.isOpen && l.pend.isNone }

/-- The host raises `shutdown` (R238). Raising it again changes nothing. -/
def raiseShutdownStep (s : State) : State :=
  if s.alive && !s.shutdown then
    { s with
      shutdown := true
      ports := s.ports.map fun q => { q with link := q.link.atShutdown }
      conns := s.conns.map Link.atShutdown }
  else s

/-- A transport whose resources are released (R264). -/
def Link.released (l : Link) : Link := { l with isOpen := false, inRead := false }

/-- The Server is destroyed, after shutdown: every `open[t]` becomes 0 (R264). -/
def destroyStep (s : State) : State :=
  if s.alive && s.shutdown then
    { s with
      alive := false
      ports := s.ports.map fun q => { q with link := q.link.released }
      conns := s.conns.map Link.released }
  else s

/-- One action. -/
def perform (a : Action) (s : State) : Result :=
  match a with
  | .read t ans => .next (readStep t ans s)
  | .enqueue t => .next (enqueueStep t s)
  | .dispatch w => dispatchStep w s
  | .openSerial => .next (openSerialStep s)
  | .accept => .next (acceptStep s)
  | .peekBit b a => .next (hostPeek (.bit (bankReadBit s b a)) s)
  | .peekWord b a => .next (hostPeek (.word (bankReadWord s b a)) s)
  | .pokeBit b a v => .next (hostPokeBit b a v s)
  | .pokeWord b a v => .next (hostPokeWord b a v s)
  | .raiseShutdown => .next (raiseShutdownStep s)
  | .destroy => .next (destroyStep s)

/-- Where the next instruction is fetched from: the connection of `tableTransport`, open (log 19). -/
def openFirstConn : List Link → List Link
  | [] => [Link.fresh]
  | l :: ls => { l with isOpen := true } :: ls

/-- The state in which the very next step dispatches the Request `r` (log 19). -/
def placeRequest (r : Request) (s : State) : State :=
  { s with
    alive := true
    shutdown := false
    conns := openFirstConn s.conns
    rq := r :: s.rq
    agenda := .dispatch .ok :: s.agenda }

end Sys2Proof.Machine
end

