-- ==== Sys2Proof/Machine/Step.lean ====
section
/-! DEFINITION. One step: the next action of the agenda (spec/00_scope.md R5; spec/20_memory.md R72; log 2). With nothing to come,
every agent waits (spec/60_exceptions.md R247); a run that waits for ever while an agent's step stays enabled is not weakly fair
(Sys2Proof/Machine/Runs.lean). -/

namespace Sys2Proof.Machine

def step (s : State) : Host.Outcome State Fault Refusal :=
  match s.agenda with
  | [] => .next s
  | a :: rest => perform a { s with agenda := rest }

/-- The state whose next step runs the opcode-table word `w`: its Request is at the head of `RQ`, its connection is open,
and the Dispatcher moves next (log 19). -/
def State.withFetchWord (s : State) (nbits w : Nat) : State :=
  match decodeFrame tableTransport (tableAdu nbits w) with
  | .ok f => placeRequest { frame := f, origin := tableTransport } s
  | .error _ => s

end Sys2Proof.Machine
end

