-- ==== Sys2Proof/Machine/Payloads.lean ====
section
/-! DEFINITION. The payload-building helpers and the assembler line (spec/41_frame_codec.md R151 to R153;
spec/30_encoding.md R115, R116). They build requests for a client or a test; no step of the machine calls them. -/

namespace Sys2Proof.Machine

/-- `PAYLOAD4(addr, count)` (R151). -/
def payload4 (addr count : Word) : List Byte := wordBytes addr ++ wordBytes count

/-- `PAYLOADV(addr, count, values)` (R152), refused outside its precondition. -/
def payloadV (addr count : Word) (values : List Word) : Except Refusal (List Byte) :=
  if values.length = count.toNat ∧ count.toNat ≤ 127 then
    .ok (payload4 addr count ++ [countByte (2 * count.toNat)] ++ values.flatMap wordBytes)
  else .error .payloadVPrecondition

/-- The coil-write payload (R153, R107), refused when it would not have the shape of `RQ_WBITS` (log 15). -/
def payloadCoils (addr count : Word) (bytes : List Byte) : Except Refusal (List Byte) :=
  if bytes.length = ceil8 count.toNat ∧ ceil8 count.toNat ≤ 255 then
    .ok (payload4 addr count ++ [countByte (ceil8 count.toNat)] ++ bytes)
  else .error .payloadCoilsShape

/-- The mnemonic and operands of an assembler line (R115). -/
inductive AsmBody where
  | rdco (addr count : Word)
  | rddi (addr count : Word)
  | rdhr (addr count : Word)
  | rdir (addr count : Word)
  | wrmc (addr count : Word) (bytes : List Byte)
  | wrmr (addr count : Word) (values : List Word)
  | raw (fc : Byte) (data : List Byte)
deriving DecidableEq, Repr

/-- The PDU a line stands for, every mnemonic as `RAW` (R116). -/
def asmPdu : AsmBody → Except Refusal (Byte × List Byte)
  | .rdco addr count => .ok (0x01#8, payload4 addr count)
  | .rddi addr count => .ok (0x02#8, payload4 addr count)
  | .rdhr addr count => .ok (0x03#8, payload4 addr count)
  | .rdir addr count => .ok (0x04#8, payload4 addr count)
  | .wrmc addr count bytes => (payloadCoils addr count bytes).map fun d => (0x0F#8, d)
  | .wrmr addr count values => (payloadV addr count values).map fun d => (0x10#8, d)
  | .raw fc data => .ok (fc, data)

/-- The ADU an assembler line stands for (R115): `head` says `rtu` or `tcp(txn, proto)`. -/
def assemble (head : Header) (unit : Byte) (body : AsmBody) : Except Refusal (List Byte) :=
  match asmPdu body with
  | .error e => .error e
  | .ok (fc, data) =>
    match encodeFrame { head := head, unit := unit, fc := fc, data := data } with
    | some adu => .ok adu
    | none => .error .encodeTcpTooLong

end Sys2Proof.Machine
end

