-- ==== Sys2Proof/Machine/Runs.lean ====
section
/-! DEFINITION. Whole runs: which steps are enabled, runs without end and weak fairness (spec/00_scope.md R6;
spec/70_reset_and_hazards.md R281), the end of a run and what is observed of it (R266). -/

namespace Sys2Proof.Machine

/-! ## Weak fairness -/

/-- The agents that fairness speaks of: the machine's own (spec/00_scope.md R5). The host, the devices and the listener are
outside it and under no law (log 17). -/
inductive Agent where
  /-- `SR[p]` or `TC[c]`. -/
  | task (t : Transport)
  /-- `DP`. -/
  | dispatcher
deriving DecidableEq, Repr

/-- Whose step an action is; `none` for a step of the host or of the listener. -/
def Action.agent : Action → Option Agent
  | .read t _ | .enqueue t => some (.task t)
  | .dispatch _ => some .dispatcher
  | .openSerial | .accept | .peekBit .. | .peekWord .. | .pokeBit .. | .pokeWord .. | .raiseShutdown | .destroy => none

/-- The step is enabled, with the answer the outside gives it. -/
def Action.enabled (a : Action) (s : State) : Bool :=
  match a with
  | .read t ans => (s.link? t).any (canRead s) && ans.possible s.readMax
  | .enqueue t => canEnqueue s t
  | .dispatch _ => canDispatch s
  | .openSerial => canOpenSerial s
  | .accept | .raiseShutdown => s.alive && !s.shutdown
  | .peekBit .. | .peekWord .. | .pokeBit .. | .pokeWord .. => s.alive
  | .destroy => s.alive && s.shutdown

/-- The agent has an enabled step, which it must eventually take if it stays so (R6). A `Read` left over from shutdown is not
counted, because it may never complete (spec/42_reassembler.md R170; U3). -/
def Agent.enabled (g : Agent) (s : State) : Bool :=
  match g with
  | .task t => !s.shutdown && (s.link? t).any (canRead s) || canEnqueue s t
  | .dispatcher => canDispatch s

/-- A run without end: in state `r n` the step `acts n` is taken, or nobody moves. -/
def isRun (acts : Nat → Option Action) (r : Nat → State) : Prop :=
  ∀ n, step { r n with agenda := (acts n).toList } = .next (r (n + 1))

/-- The agent takes one of its enabled steps at `n`. -/
def takesStep (g : Agent) (acts : Nat → Option Action) (r : Nat → State) (n : Nat) : Prop :=
  ∃ a, acts n = some a ∧ a.agent = some g ∧ a.enabled (r n) = true

/-- Weak fairness: an agent whose step stays enabled eventually takes it (R6). -/
def weaklyFair (acts : Nat → Option Action) (r : Nat → State) : Prop :=
  ∀ g n, (∀ m, n ≤ m → g.enabled (r m) = true) → ∃ m, n ≤ m ∧ takesStep g acts r m

/-! ## The end of a run -/

/-- The run has ended: `shutdown = 1` and no step is in progress (R266). Steps are atomic, so only a `Read` left over from
shutdown can be in progress (log 5). -/
def runEnded (s : State) : Bool :=
  s.shutdown && s.ports.all (fun q => !q.link.inRead) && s.conns.all fun l => !l.inRead

/-- What is observed of a run: `TX[t]` of every transport and the contents of the banks (R266), in canonical form (log 12). -/
structure Observation where
  /-- `TX[p]` of every serial port, by its number. -/
  serial : List (List (List Byte))
  /-- `TX[c]` of every TCP connection, by its number. -/
  tcp : List (List (List Byte))
  co : Bank Bool
  di : Bank Bool
  hr : Bank Word
  ir : Bank Word
deriving DecidableEq, Repr

/-- What is observed of a state. `RXBUF[p]`, `RQ` and `PEND[t]` take no part (R266). -/
def observe (s : State) : Observation where
  serial := s.ports.map fun q => q.link.tx
  tcp := s.conns.map Link.tx
  co := s.co
  di := s.di
  hr := s.hr
  ir := s.ir

/-- The observable result of a run that has ended; none of one that has not (R266). -/
def runResult (s : State) : Option Observation := if runEnded s then some (observe s) else none

end Sys2Proof.Machine
end

