-- ==== Sys2Proof/Safety.lean ====
section
/-! DEFINITION. What claims about steps and runs speak of: the invariant of the machine, what a step sends, and what it leaves
alone. -/

namespace Sys2Proof.Machine

/-- A Request that waits for transport `t`: decoded from it, and such as a decoder accepts (spec/43_dispatcher.md R199;
spec/10_state.md R26). -/
def pendOk (t : Transport) (o : Option Request) : Prop :=
  ∀ r, o = some r → r.origin = t ∧ r.wellFormed = true

/-- What holds of every state a run reaches. -/
structure Inv (s : State) : Prop where
  /-- The banks are in canonical form, with addresses below 65536 (spec/10_state.md R20 to R23). -/
  memory : Memory.wf s = true
  /-- Between steps at most 4 bytes are buffered (spec/42_reassembler.md R167). -/
  buffers : ∀ p, (s.rxbufOf p).length ≤ 4
  /-- `RQ` holds at most `QUEUE_DEPTH` Requests (spec/10_state.md R30). -/
  queue : s.rq.length ≤ s.queueDepth
  /-- Only Requests that a decoder accepted reach the Dispatcher (R199). -/
  queued : ∀ r ∈ s.rq, r.wellFormed = true
  /-- The same holds of `PEND[t]`, whose Request came from `t` itself (R42). -/
  pending : ∀ t, pendOk t (s.pendOf t)
  /-- A `Read` left over from shutdown is of an open transport with nothing pending (spec/42_reassembler.md R168, R170). -/
  reads : ∀ t, s.inReadOf t = true → s.shutdown = true ∧ s.isOpen t = true ∧ s.pendOf t = none
  /-- At most `N_SERIAL` ports are open (spec/10_state.md R28). -/
  ports : s.ports.length ≤ s.nSerial
  /-- The ranges of the parameters (spec/00_scope.md R7). -/
  parameters : 1 ≤ s.readMax ∧ 1 ≤ s.queueDepth
  /-- A destroyed Server was shut down and has no open transport (spec/70_reset_and_hazards.md R264). -/
  destroyed : s.alive = false → s.shutdown = true ∧ ∀ t, s.isOpen t = false

/-- The capacity of a port's accumulation buffer, `BUF_CAP = READ_MAX + 4` (spec/00_scope.md R7). -/
def bufCap (s : State) : Nat := s.readMax + 4

/-- The state a result holds, if it is a next state. -/
def nextState? : Result → Option State
  | .next s => some s
  | .fault _ => none
  | .refused _ => none

/-- `n` steps of the machine, stopping at the first that is not a next state. -/
def run (n : Nat) (s : State) : Result := core.run n s

/-- No step to come writes a bank on the host's path (spec/60_exceptions.md R237). -/
def noPokes (as : List Action) : Prop := (∀ b a v, .pokeBit b a v ∉ as) ∧ ∀ b a v, .pokeWord b a v ∉ as

/-! ## Requests by what their Data is -/

/-- Data that passes every check of a read handler with count limit `max` (spec/60_exceptions.md R226). -/
abbrev readOk (max : Nat) (data : List Byte) : Prop :=
  data.length = 4 ∧ 1 ≤ countOf data ∧ countOf data ≤ max

/-- Data that passes every check of a write handler with count limit `max` and byteCount `bytes count` (R226). -/
abbrev writeOk (max : Nat) (bytes : Nat → Nat) (data : List Byte) : Prop :=
  5 ≤ data.length ∧ 1 ≤ countOf data ∧ countOf data ≤ max ∧ (byteAt data 4).toNat = bytes (countOf data) ∧
    data.length = 5 + bytes (countOf data)

/-- The instruction is one of the 13 rows of `ILLEGAL`. -/
def isIllegal : Instr → Bool
  | .rdco .. | .rddi .. | .rdhr .. | .rdir .. | .wrmc .. | .wrmr .. => false
  | .illegal00 .. | .illegal05 .. | .illegal06 .. | .illegal08 .. | .illegal0C .. | .illegal0E .. | .illegal11 ..
  | .illegal12 .. | .illegal14 .. | .illegal18 .. | .illegal20 .. | .illegal40 .. | .illegal80 .. => true

/-- The six admitted function codes (spec/30_encoding.md R103). -/
def admittedCodes : List Byte := [0x01#8, 0x02#8, 0x03#8, 0x04#8, 0x0F#8, 0x10#8]

/-- The Frame of an instruction's request. -/
def frameOf (i : Instr) : Frame := i.toRequest.frame

/-! ## Payloads -/

/-- `p` is `RS_BITS` for the `n` bits `f 0 .. f (n - 1)` (R109). -/
def isBitsPayload (p : List Byte) (n : Nat) (f : Nat → Bool) : Prop :=
  p.length = 1 + (n + 7) / 8 ∧ (byteAt p 0).toNat = (n + 7) / 8 ∧
    ∀ k, k < 8 * ((n + 7) / 8) → (byteAt p (1 + k / 8)).getLsbD (k % 8) = (decide (k < n) && f k)

/-- `p` is `RS_REGS` for the `n` words `f 0 .. f (n - 1)` (R110). -/
def isRegsPayload (p : List Byte) (n : Nat) (f : Nat → Word) : Prop :=
  p.length = 1 + 2 * n ∧ (byteAt p 0).toNat = 2 * n ∧
    ∀ k, k < n → (byteAt p (1 + 2 * k)).toNat = (f k).toNat / 256 ∧ (byteAt p (2 + 2 * k)).toNat = (f k).toNat % 256

/-! ## What a step leaves alone -/

/-- Every element of every bank reads the same. -/
def banksSame (s t : State) : Prop :=
  (∀ b a, bankReadBit t b a = bankReadBit s b a) ∧ ∀ b a, bankReadWord t b a = bankReadWord s b a

/-- A link without its stream. -/
def Link.quiet (l : Link) : Link := { l with tx := [] }

/-- Everything but the banks and the streams is the same: `RQ`, `shutdown`, the Server's existence, the parameters, the
model's own fields, every `RXBUF[p]` and every `open[t]` and `PEND[t]`. -/
def restSame (s t : State) : Prop :=
  t.rq = s.rq ∧ t.shutdown = s.shutdown ∧ t.alive = s.alive ∧ t.readMax = s.readMax ∧ t.queueDepth = s.queueDepth ∧
    t.nSerial = s.nSerial ∧
    t.agenda = s.agenda ∧ t.writeAnswer = s.writeAnswer ∧ t.peeks = s.peeks ∧
    (∀ u, (t.link? u).map Link.quiet = (s.link? u).map Link.quiet) ∧ ∀ p, t.rxbufOf p = s.rxbufOf p

/-- Every stream is the same. -/
def streamsSame (s t : State) : Prop := ∀ u, t.txOf u = s.txOf u

/-- The stream of `o` has one ADU more, if `o` is open and its device takes the `Write`; every other stream is the same
(spec/43_dispatcher.md R194, R195). -/
def streamGains (s t : State) (o : Transport) (adu : List Byte) : Prop :=
  ∀ u, t.txOf u = if u = o ∧ s.isOpen o = true ∧ s.writeAnswer = .ok then s.txOf u ++ [adu] else s.txOf u

/-- The instruction completes in the state `t`, and its one Response is `resp`, encoded. -/
def responds (i : Instr) (s t : State) (resp : Frame) : Prop :=
  exec i s = .next t ∧ ∃ adu, encodeFrame resp = some adu ∧ streamGains s t i.origin adu ∧ restSame s t

/-- The instruction takes the exception `code`: its Response is the Exception Frame and no bank changes (R193, R224). -/
def takesException (i : Instr) (s : State) (code : ExcCode) : Prop :=
  ∃ t, responds i s t (buildException (frameOf i) code) ∧ banksSame s t

end Sys2Proof.Machine
end

