-- ==== Sys2Proof/Certificates/Slice0/Obligations.lean ====
section
/-! DEFINITION. The statements for the provers. Each docstring names the rule of spec/ it formalises. -/

open Sys2Proof Sys2Proof.Machine

/-! ## The CRC16 Engine -/

/-- R130: the table has 256 entries and each is eight right-shift steps of the polynomial. -/
def Obligations.CrcTableHoldsEightShifts : Prop :=
  crcTable.length = 256 ∧ ∀ i : Byte, crcEntry i = crcShift8 (i.setWidth 16)

/-- R132: the definition without the table gives the same word. -/
def Obligations.CrcTableAndBitwiseAgree : Prop := ∀ s : List Byte, crc16Bitwise s = crc16 s

/-- R131: a sequence followed by its own checksum has the checksum 0. -/
def Obligations.CrcOfSequenceWithItsChecksumIsZero : Prop :=
  ∀ s : List Byte, crc16 (s ++ [lo8 (crc16 s), hi8 (crc16 s)]) = 0#16

/-- R279: an accepted RTU ADU followed by any number of zero bytes is accepted again, with the extra bytes moved into
Data. -/
def Obligations.ZeroPaddedRtuFrameIsAccepted : Prop :=
  ∀ (b : List Byte) (f : Frame) (n : Nat), decodeRtu b = .ok f →
    ∃ g, decodeRtu (b ++ List.replicate n 0#8) = .ok g ∧ g.unit = f.unit ∧ g.fc = f.fc ∧
      g.data = (b.drop 2 ++ List.replicate n 0#8).take (b.length + n - 4)

/-! ## The codec -/

/-- Words written out from the encoding tables decode to the instructions they stand for (R91, R94, R103; vectors S6, VF1,
VH1, S4). -/
def Obligations.SpecWordsDecode : Prop :=
  decode (.tcp 0) [0, 2, 0, 0, 0, 6, 1, 1, 0, 0x64, 0, 0x10] =
      .ok (.rdco { head := .tcp 2 0, unit := 1, origin := .tcp 0 } [0, 100, 0, 16]) ∧
    decode (.serial 0) [1, 3, 0, 0, 0, 1, 0x84, 0x0A] =
      .ok (.rdhr { head := .rtu (some 0x0A84), unit := 1, origin := .serial 0 } [0, 0, 0, 1]) ∧
    decode (.serial 0) [1, 0x10, 0, 7, 0, 2, 4, 0, 3, 0, 4, 0x43, 0x8A] =
      .ok (.wrmr { head := .rtu (some 0x8A43), unit := 1, origin := .serial 0 } [0, 7, 0, 2, 4, 0, 3, 0, 4]) ∧
    decode (.serial 0) [1, 0xFF, 0, 0x61, 0xF0] =
      .ok (.illegal80 { head := .rtu (some 0xF061), unit := 1, origin := .serial 0 } 0x7F [0])

/-- Decode and encode agree on every well-formed instruction, with every operand (R149, R150, for requests). -/
def Obligations.DecodeAfterEncodeIsIdentity : Prop :=
  ∀ i : Instr, i.wellFormed = true → ∃ b, encode i = some b ∧ decode i.origin b = .ok i

/-- The converse, on accepted input (R150): what a decoder accepts is well formed and encodes to the bytes it came from. -/
def Obligations.EncodeAfterDecodeIsIdentity : Prop :=
  ∀ (t : Transport) (b : List Byte) (i : Instr), decode t b = .ok i →
    i.wellFormed = true ∧ i.origin = t ∧ encode i = some b

/-- R149 on the domain of R150, for Frames that carry any checksum or none: a decoder of the Frame's kind gives back the
function code, unit id and data, and for TCP the transaction and protocol identifiers. -/
def Obligations.FrameRoundTrip : Prop :=
  (∀ (txn proto : Word) (unit fc : Byte) (data : List Byte), data.length ≤ 65533 →
    ∃ b, encodeFrame { head := .tcp txn proto, unit := unit, fc := fc, data := data } = some b ∧
      decodeTcp b = .ok { head := .tcp txn proto, unit := unit, fc := fc, data := data }) ∧
  ∀ (crc : Option Word) (unit fc : Byte) (data : List Byte), 1 ≤ data.length →
    ∃ b g, encodeFrame { head := .rtu crc, unit := unit, fc := fc, data := data } = some b ∧ decodeRtu b = .ok g ∧
      g.unit = unit ∧ g.fc = fc ∧ g.data = data

/-- R91, R92, R93, R60: the bytes of a TCP ADU, offset by offset, the Length field counting from UnitId to the end. -/
def Obligations.TcpAduLayout : Prop :=
  ∀ (txn proto : Word) (unit fc : Byte) (data : List Byte), data.length ≤ 65533 →
    ∃ b, encodeFrame { head := .tcp txn proto, unit := unit, fc := fc, data := data } = some b ∧
      b.length = 8 + data.length ∧
      256 * (byteAt b 0).toNat + (byteAt b 1).toNat = txn.toNat ∧
      256 * (byteAt b 2).toNat + (byteAt b 3).toNat = proto.toNat ∧
      256 * (byteAt b 4).toNat + (byteAt b 5).toNat = b.length - 6 ∧
      byteAt b 6 = unit ∧ byteAt b 7 = fc ∧ b.drop 8 = data

/-- R94, R95, R61: the bytes of an RTU ADU, its checksum low byte first and taken over all the bytes before it. -/
def Obligations.RtuAduLayout : Prop :=
  ∀ (crc : Option Word) (unit fc : Byte) (data : List Byte),
    ∃ b, encodeFrame { head := .rtu crc, unit := unit, fc := fc, data := data } = some b ∧
      b.length = 4 + data.length ∧ byteAt b 0 = unit ∧ byteAt b 1 = fc ∧ (b.drop 2).take data.length = data ∧
      (byteAt b (data.length + 2)).toNat + 256 * (byteAt b (data.length + 3)).toNat =
        (crc16 (unit :: fc :: data)).toNat

/-- R221, R222: the causes of a decode error, exhaustively; a TCP ADU never has a checksum mismatch. -/
def Obligations.DecodeErrorCauses : Prop :=
  (∀ (c : Nat) (b : List Byte), decodeFrame (.tcp c) b ≠ .error .checksumMismatch ∧
    (decodeFrame (.tcp c) b = .error .malformedFrame ↔
      b.length < 8 ∨ 256 * (byteAt b 4).toNat + (byteAt b 5).toNat ≠ b.length - 6)) ∧
  ∀ (p : Nat) (b : List Byte),
    (decodeFrame (.serial p) b = .error .malformedFrame ↔ b.length < 5) ∧
    (decodeFrame (.serial p) b = .error .checksumMismatch ↔
      5 ≤ b.length ∧ (byteAt b (b.length - 2)).toNat + 256 * (byteAt b (b.length - 1)).toNat ≠
        (crc16 (b.take (b.length - 2))).toNat)

/-- R278, R150: an RTU Frame without Data encodes to 4 bytes that the decoder rejects. -/
def Obligations.RtuFrameWithoutDataIsNotReceived : Prop :=
  ∀ (crc : Option Word) (unit fc : Byte), ∃ b,
    encodeFrame { head := .rtu crc, unit := unit, fc := fc, data := [] } = some b ∧ b.length = 4 ∧
      decodeRtu b = .error .malformedFrame

/-- R103, R104, R182: the function code alone selects the handler; the six admitted codes select theirs, every other code a
row of ILLEGAL; the identity, the code and the Data are kept. -/
def Obligations.FunctionCodeSelectsHandler : Prop :=
  ∀ (q : Ident) (data : List Byte),
    instrOfParts q 0x01#8 data = .rdco q data ∧ instrOfParts q 0x02#8 data = .rddi q data ∧
    instrOfParts q 0x03#8 data = .rdhr q data ∧ instrOfParts q 0x04#8 data = .rdir q data ∧
    instrOfParts q 0x0F#8 data = .wrmc q data ∧ instrOfParts q 0x10#8 data = .wrmr q data ∧
    ∀ fc : Byte, (isIllegal (instrOfParts q fc data) = true ↔ fc ∉ admittedCodes) ∧
      (instrOfParts q fc data).fc = fc ∧ (instrOfParts q fc data).ident = q ∧ (instrOfParts q fc data).data = data

/-- R105: address and count are the first four Data bytes, each big-endian and unsigned; the source's example
`[0,0,0,64]`. -/
def Obligations.OperandAssembly : Prop :=
  (∀ (a1 a0 c1 c0 : Byte) (rest : List Byte),
    (addrOf (a1 :: a0 :: c1 :: c0 :: rest)).toNat = 256 * a1.toNat + a0.toNat ∧
    countOf (a1 :: a0 :: c1 :: c0 :: rest) = 256 * c1.toNat + c0.toNat) ∧
  addrOf [0, 0, 0, 64] = 0 ∧ countOf [0, 0, 0, 64] = 64

/-- R152: PAYLOADV gives a payload exactly on its precondition, and every operand can be read back from it; it is refused
otherwise. -/
def Obligations.RegisterPayloadReadsBack : Prop :=
  ∀ (addr count : Word) (values : List Word),
    (values.length = count.toNat ∧ count.toNat ≤ 127 → ∃ d, payloadV addr count values = .ok d ∧
      d.length = 5 + 2 * count.toNat ∧ addrOf d = addr ∧ countOf d = count.toNat ∧
      (byteAt d 4).toNat = 2 * count.toNat ∧ ∀ k, k < count.toNat → regOperand d k = values.getD k 0#16) ∧
    (¬ (values.length = count.toNat ∧ count.toNat ≤ 127) →
      payloadV addr count values = .error .payloadVPrecondition)

/-- R107, R153: the coil payload carries address, count, byteCount and the packed bytes. -/
def Obligations.CoilPayloadReadsBack : Prop :=
  ∀ (addr count : Word) (bytes : List Byte), bytes.length = (count.toNat + 7) / 8 → bytes.length ≤ 255 →
    ∃ d, payloadCoils addr count bytes = .ok d ∧ d.length = 5 + bytes.length ∧ addrOf d = addr ∧
      countOf d = count.toNat ∧ (byteAt d 4).toNat = bytes.length ∧
      ∀ k, k < count.toNat → coilOperand d k = (byteAt bytes (k / 8)).getLsbD (k % 8)

/-! ## The Register Store and the host -/

/-- R212, R210: a bit written to an address is read at every address equal to it modulo 65536, and no other element of any
bank changes. -/
def Obligations.BitWriteSetsOneElement : Prop :=
  ∀ (s : State) (b : BitBank) (a : Nat) (v : Bool), Memory.wf s = true →
    (∀ b' a', bankReadBit (bankWriteBit s b a v) b' a' =
      if b' = b ∧ a' % 65536 = a % 65536 then v else bankReadBit s b' a') ∧
    ∀ b' a', bankReadWord (bankWriteBit s b a v) b' a' = bankReadWord s b' a'

/-- R213, R211: the same for a word, all 16 bits. -/
def Obligations.WordWriteSetsOneElement : Prop :=
  ∀ (s : State) (b : WordBank) (a : Nat) (v : Word), Memory.wf s = true →
    (∀ b' a', bankReadWord (bankWriteWord s b a v) b' a' =
      if b' = b ∧ a' % 65536 = a % 65536 then v else bankReadWord s b' a') ∧
    ∀ b' a', bankReadBit (bankWriteWord s b a v) b' a' = bankReadBit s b' a'

/-- R237: HostPoke writes one element and HostPeek returns one, each in one step that sends nothing and changes nothing
else. That the host's steps stand
in the agenda and that peeked values are collected is the model's form (log 2, log 7). -/
def Obligations.HostAccessIsOneElement : Prop :=
  ∀ (s : State) (rest : List Action), s.alive = true → Memory.wf s = true →
    (∀ b a v, ∃ t, step { s with agenda := .pokeBit b a v :: rest } = .next t ∧
      (∀ b' a', bankReadBit t b' a' = if b' = b ∧ a' % 65536 = a % 65536 then v else bankReadBit s b' a') ∧
      (∀ b' a', bankReadWord t b' a' = bankReadWord s b' a') ∧ streamsSame s t ∧ restSame { s with agenda := rest } t) ∧
    (∀ b a v, ∃ t, step { s with agenda := .pokeWord b a v :: rest } = .next t ∧
      (∀ b' a', bankReadWord t b' a' = if b' = b ∧ a' % 65536 = a % 65536 then v else bankReadWord s b' a') ∧
      (∀ b' a', bankReadBit t b' a' = bankReadBit s b' a') ∧ streamsSame s t ∧ restSame { s with agenda := rest } t) ∧
    (∀ b a, step { s with agenda := .peekBit b a :: rest } =
      .next { s with agenda := rest, peeks := s.peeks ++ [.bit (bankReadBit s b a)] }) ∧
    ∀ b a, step { s with agenda := .peekWord b a :: rest } =
      .next { s with agenda := rest, peeks := s.peeks ++ [.word (bankReadWord s b a)] }

/-! ## The handlers: result, completion and frame -/

/-- R185, R186: RDCO and RDDI. Data that passes the checks is answered with the packed elements of the bank, from `addr` on
modulo 65536, unused bits 0; any other Data with IllegalDataValue. No state is written but the one stream. -/
def Obligations.BitReadResult : Prop :=
  ∀ (q : Ident) (data : List Byte) (s : State),
    (readOk 2000 data →
      (∃ t p, responds (.rdco q data) s t (buildResponse (frameOf (.rdco q data)) p) ∧ banksSame s t ∧
        isBitsPayload p (countOf data) fun k => bankReadBit s .co (((addrOf data).toNat + k) % 65536)) ∧
      ∃ t p, responds (.rddi q data) s t (buildResponse (frameOf (.rddi q data)) p) ∧ banksSame s t ∧
        isBitsPayload p (countOf data) fun k => bankReadBit s .di (((addrOf data).toNat + k) % 65536)) ∧
    (¬ readOk 2000 data →
      takesException (.rdco q data) s .illegalDataValue ∧ takesException (.rddi q data) s .illegalDataValue)

/-- R187, R188: RDHR and RDIR, the same for words, each high byte first. -/
def Obligations.RegisterReadResult : Prop :=
  ∀ (q : Ident) (data : List Byte) (s : State),
    (readOk 125 data →
      (∃ t p, responds (.rdhr q data) s t (buildResponse (frameOf (.rdhr q data)) p) ∧ banksSame s t ∧
        isRegsPayload p (countOf data) fun k => bankReadWord s .hr (((addrOf data).toNat + k) % 65536)) ∧
      ∃ t p, responds (.rdir q data) s t (buildResponse (frameOf (.rdir q data)) p) ∧ banksSame s t ∧
        isRegsPayload p (countOf data) fun k => bankReadWord s .ir (((addrOf data).toNat + k) % 65536)) ∧
    (¬ readOk 125 data →
      takesException (.rdhr q data) s .illegalDataValue ∧ takesException (.rdir q data) s .illegalDataValue)

/-- R189: WRMC. Data that passes the checks sets `count` coils from `addr` on modulo 65536 to the packed bits, changes no
other element, and is answered with the first four Data bytes; any other Data takes IllegalDataValue. -/
def Obligations.CoilWriteResult : Prop :=
  ∀ (q : Ident) (data : List Byte) (s : State), Memory.wf s = true →
    (writeOk 1968 (fun n => (n + 7) / 8) data →
      ∃ t, responds (.wrmc q data) s t (buildResponse (frameOf (.wrmc q data)) (data.take 4)) ∧
        (∀ k, k < countOf data → bankReadBit t .co (((addrOf data).toNat + k) % 65536) =
          (byteAt data (5 + k / 8)).getLsbD (k % 8)) ∧
        (∀ a, a < 65536 → (∀ k, k < countOf data → a ≠ ((addrOf data).toNat + k) % 65536) →
          bankReadBit t .co a = bankReadBit s .co a) ∧
        (∀ a, bankReadBit t .di a = bankReadBit s .di a) ∧ ∀ b a, bankReadWord t b a = bankReadWord s b a) ∧
    (¬ writeOk 1968 (fun n => (n + 7) / 8) data → takesException (.wrmc q data) s .illegalDataValue)

/-- R190: WRMR, the same for Holding Registers, each value high byte first. -/
def Obligations.RegisterWriteResult : Prop :=
  ∀ (q : Ident) (data : List Byte) (s : State), Memory.wf s = true →
    (writeOk 123 (fun n => 2 * n) data →
      ∃ t, responds (.wrmr q data) s t (buildResponse (frameOf (.wrmr q data)) (data.take 4)) ∧
        (∀ k, k < countOf data → (bankReadWord t .hr (((addrOf data).toNat + k) % 65536)).toNat =
          256 * (byteAt data (5 + 2 * k)).toNat + (byteAt data (6 + 2 * k)).toNat) ∧
        (∀ a, a < 65536 → (∀ k, k < countOf data → a ≠ ((addrOf data).toNat + k) % 65536) →
          bankReadWord t .hr a = bankReadWord s .hr a) ∧
        (∀ a, bankReadWord t .ir a = bankReadWord s .ir a) ∧ ∀ b a, bankReadBit t b a = bankReadBit s b a) ∧
    (¬ writeOk 123 (fun n => 2 * n) data → takesException (.wrmr q data) s .illegalDataValue)

/-- R191, R104: each of the 13 rows of ILLEGAL takes IllegalFunction, whatever its Data is: the rows 0x00, 0x05, 0x06, 0x08,
0x0C, 0x0E, 0x11, 0x12, 0x14, 0x18, 0x20, 0x40 and 0x80. -/
def Obligations.IllegalCodeTakesIllegalFunction : Prop :=
  ∀ (i : Instr) (s : State), isIllegal i = true → takesException i s .illegalFunction

/-- R181, R196, R192, R193: every instruction completes with exactly one Response, a normal Frame with its header, unit id
and function code, or an Exception Frame with bit 7 of the function code set and one of two codes. -/
def Obligations.ExactlyOneResponse : Prop :=
  ∀ (i : Instr) (s : State), ∃ t resp, responds i s t resp ∧
    resp.unit = i.ident.unit ∧
    (∀ txn proto, i.ident.head = .tcp txn proto → resp.head = .tcp txn proto) ∧
    (∀ crc, i.ident.head = .rtu crc → resp.head = .rtu none) ∧
    ((resp.fc = i.fc ∧ 2 ≤ resp.data.length ∧ resp.data.length ≤ 251) ∨
      (resp.fc = i.fc ||| 0x80#8 ∧ (resp.data = [0x01#8] ∨ resp.data = [0x03#8])))

/-- R225, R227: an Exception Frame with code IllegalFunction is sent only for a row of ILLEGAL, and one with code
IllegalDataAddress never. -/
def Obligations.IllegalDataAddressIsNeverSent : Prop :=
  ∀ (i : Instr) (s t : State) (adu : List Byte), exec i s = .next t → s.isOpen i.origin = true → s.writeAnswer = .ok →
    (encodeFrame (buildException (frameOf i) .illegalDataAddress) = some adu →
      t.txOf i.origin ≠ s.txOf i.origin ++ [adu]) ∧
    (isIllegal i = false → encodeFrame (buildException (frameOf i) .illegalFunction) = some adu →
      t.txOf i.origin ≠ s.txOf i.origin ++ [adu])

/-- R224, R24: only a WRMC whose Data passes every check can change a coil, only such a WRMR a Holding Register, and no
request a Discrete Input or an Input Register. -/
def Obligations.OnlyCheckedWritesChangeBanks : Prop :=
  ∀ (i : Instr) (s t : State), exec i s = .next t →
    t.di = s.di ∧ t.ir = s.ir ∧
    (t.co = s.co ∨ ∃ q data, i = .wrmc q data ∧ writeOk 1968 (fun n => (n + 7) / 8) data) ∧
    (t.hr = s.hr ∨ ∃ q data, i = .wrmr q data ∧ writeOk 123 (fun n => 2 * n) data)

/-- R195, R232: a Response that is lost, because the `Write` fails or the transport is closed, adds nothing to any stream, and
what the same request does to the banks is the same as when its Response is not lost. -/
def Obligations.LostResponseKeepsBankEffects : Prop :=
  ∀ (q q' : Ident) (fc : Byte) (data : List Byte) (s : State),
    ∃ t u, exec (instrOfParts q fc data) { s with writeAnswer := .error } = .next t ∧
      exec (instrOfParts q' fc data) { s with writeAnswer := .ok } = .next u ∧ streamsSame s t ∧
      (s.isOpen q'.origin = false → streamsSame s u) ∧
      t.co = u.co ∧ t.di = u.di ∧ t.hr = u.hr ∧ t.ir = u.ir

/-- R182, R184: the unit id, the header fields and the transport take no part in what a request does to the banks. -/
def Obligations.IdentityDoesNotReachBanks : Prop :=
  ∀ (q q' : Ident) (fc : Byte) (data : List Byte) (s : State),
    ∃ t u, exec (instrOfParts q fc data) s = .next t ∧ exec (instrOfParts q' fc data) s = .next u ∧
      t.co = u.co ∧ t.di = u.di ∧ t.hr = u.hr ∧ t.ir = u.ir

/-- R189, R185, R63 (the property of the source's coil example): after a WRMC, an RDCO of the same address and count returns
the bits written. -/
def Obligations.WrittenCoilsReadBack : Prop :=
  ∀ (q q' : Ident) (data : List Byte) (s : State), Memory.wf s = true →
    writeOk 1968 (fun n => (n + 7) / 8) data →
    ∃ t u p, exec (.wrmc q data) s = .next t ∧
      responds (.rdco q' (data.take 4)) t u (buildResponse (frameOf (.rdco q' (data.take 4))) p) ∧
      isBitsPayload p (countOf data) fun k => (byteAt data (5 + k / 8)).getLsbD (k % 8)

/-- R190, R187: after a WRMR, an RDHR of the same address and count returns the byteCount and exactly the value bytes
written. -/
def Obligations.WrittenRegistersReadBack : Prop :=
  ∀ (q q' : Ident) (data : List Byte) (s : State), Memory.wf s = true →
    writeOk 123 (fun n => 2 * n) data →
    ∃ t u, exec (.wrmr q data) s = .next t ∧
      responds (.rdhr q' (data.take 4)) t u (buildResponse (frameOf (.rdhr q' (data.take 4))) (data.drop 4))

/-! ## The agents -/

/-- R180, R182: when the Dispatcher moves and the bytes of the Request at the head of `RQ` decode to an instruction, the
step is that instruction, on the state without the Request, with the device's answer to the Write. That the agenda says who moves
and what the device answers is the model's form (log 2, log 6). -/
def Obligations.StepRunsDecodedInstruction : Prop :=
  ∀ (s : State) (t : Transport) (b : List Byte) (i : Instr) (f : Frame) (w : WriteAnswer) (rest : List Action)
    (tail : List Request), decode t b = .ok i → decodeFrame t b = .ok f → s.alive = true → s.shutdown = false →
    step { s with agenda := .dispatch w :: rest, rq := { frame := f, origin := t } :: tail } =
      exec i { s with agenda := rest, rq := tail, writeAnswer := w }

/-- The model's choice (log 19): `withFetchWord` places an opcode-table word so that the next step runs the instruction that
`decodeTableWord` reads from it. -/
def Obligations.FetchWordRunsTableInstruction : Prop :=
  ∀ (s : State) (nbits w : Nat) (i : Instr), decodeTableWord nbits w = some i →
    step (s.withFetchWord nbits w) =
      exec i { s with alive := true, shutdown := false, conns := openFirstConn s.conns, writeAnswer := .ok }

/-- R171, R168, R180: bytes read on an idle TCP connection that decode to an instruction are read, enqueued and dispatched
in three steps, the last of which runs that instruction on the state the three began in. The
split of the read step is the one R168 allows (log 2, log 4). -/
def Obligations.TcpRequestReachesItsHandler : Prop :=
  ∀ (s : State) (c : Nat) (l : Link) (rd : List Byte) (i : Instr) (w : WriteAnswer) (rest : List Action),
    s.alive = true → s.shutdown = false → s.rq = [] → 1 ≤ s.queueDepth → rd.length ≤ s.readMax →
    s.conns[c]? = some l → l.isOpen = true → l.inRead = false → l.pend = none → decode (.tcp c) rd = .ok i →
    run 3 { s with agenda := .read (.tcp c) (.bytes rd) :: .enqueue (.tcp c) :: .dispatch w :: rest } =
      exec i { s with agenda := rest, writeAnswer := w }

/-- R162, R163, R164, R165, R166: a read step of an idle serial port. A Frame is emitted from the longest suffix of the buffer
and the bytes read that decodes, and the buffer is emptied; if none decodes, the last 4 bytes (or all, if fewer) stay.
Nothing else changes. The Frame goes to `PEND[t]`, the split that R168 allows (log 4). -/
def Obligations.SerialReadStepResult : Prop :=
  ∀ (s : State) (p : Nat) (q : Port) (rd : List Byte) (rest : List Action),
    s.alive = true → s.shutdown = false → s.ports[p]? = some q → q.link.isOpen = true → q.link.inRead = false →
    q.link.pend = none → rd ≠ [] → rd.length ≤ s.readMax →
    (∀ k f, (∀ j, j < k → ∃ e, decodeRtu ((q.rxbuf ++ rd).drop j) = .error e) →
      decodeRtu ((q.rxbuf ++ rd).drop k) = .ok f →
      step { s with agenda := .read (.serial p) (.bytes rd) :: rest } = .next
        { s with
          agenda := rest
          ports := s.ports.set p
            { link := { q.link with pend := some { frame := f, origin := .serial p } }, rxbuf := [] } }) ∧
    ((∀ k, ∃ e, decodeRtu ((q.rxbuf ++ rd).drop k) = .error e) →
      step { s with agenda := .read (.serial p) (.bytes rd) :: rest } = .next
        { s with
          agenda := rest
          ports := s.ports.set p { q with rxbuf := (q.rxbuf ++ rd).drop ((q.rxbuf ++ rd).length - 4) } })

/-- R162, R169: before shutdown, a serial read that returns no bytes or an error changes nothing. (`inRead`: log 5.) -/
def Obligations.SerialTimeoutAndErrorChangeNothing : Prop :=
  ∀ (s : State) (p : Nat) (a : ReadAnswer) (rest : List Action), s.shutdown = false →
    (∀ q ∈ s.ports, q.link.inRead = false) → a = .bytes [] ∨ a = .error →
    step { s with agenda := .read (.serial p) a :: rest } = .next { s with agenda := rest }

/-- R171, R172, R173: a read step of an idle TCP connection. A decoded ADU becomes the pending Request; a read of no bytes
changes nothing; a failed decode or a read error closes the connection. Nothing else changes. The Request goes to `PEND[t]`
(log 4). -/
def Obligations.TcpReadStepResult : Prop :=
  ∀ (s : State) (c : Nat) (l : Link) (rest : List Action), s.alive = true → s.shutdown = false →
    s.conns[c]? = some l → l.isOpen = true → l.inRead = false → l.pend = none →
    step { s with agenda := .read (.tcp c) .error :: rest } =
      .next { s with agenda := rest, conns := s.conns.set c { l with isOpen := false } } ∧
    step { s with agenda := .read (.tcp c) (.bytes []) :: rest } = .next { s with agenda := rest } ∧
    ∀ rd, rd ≠ [] → rd.length ≤ s.readMax →
      (∀ f, decodeTcp rd = .ok f → step { s with agenda := .read (.tcp c) (.bytes rd) :: rest } =
        .next { s with
          agenda := rest
          conns := s.conns.set c { l with pend := some { frame := f, origin := .tcp c } } }) ∧
      (∀ e, decodeTcp rd = .error e → step { s with agenda := .read (.tcp c) (.bytes rd) :: rest } =
        .next { s with agenda := rest, conns := s.conns.set c { l with isOpen := false } })

/-- R168, R30, R42: the enqueue step of a task with a pending Request puts it at the tail of `RQ` and empties `PEND[t]`; it
waits while `RQ` is full. The split step is R168's, the waiting step the model's form (log 3, log 4). -/
def Obligations.EnqueueMovesPendingToTail : Prop :=
  ∀ (s : State) (t : Transport) (r : Request) (rest : List Action), s.alive = true → s.isOpen t = true →
    s.pendOf t = some r →
    (s.rq.length < s.queueDepth → ∃ u, step { s with agenda := .enqueue t :: rest } = .next u ∧
      u.rq = s.rq ++ [r] ∧ u.pendOf t = none ∧ (∀ t', t' ≠ t → u.link? t' = s.link? t') ∧ streamsSame s u ∧
      (∀ t', u.isOpen t' = s.isOpen t') ∧ (∀ p, u.rxbufOf p = s.rxbufOf p) ∧ banksSame s u ∧
      u.shutdown = s.shutdown) ∧
    (s.queueDepth ≤ s.rq.length →
      step { s with agenda := .enqueue t :: rest } = .next { s with agenda := rest })

/-- R30, R198: in one step `RQ` stays as it is, gains one Request at its tail, or loses its head. -/
def Obligations.QueueIsFirstInFirstOut : Prop :=
  ∀ s t : State, step s = .next t →
    t.rq = s.rq ∨ (∃ r, t.rq = s.rq ++ [r]) ∨ ∃ r, s.rq = r :: t.rq

/-- R281: a Dispatcher that moves `n` times before shutdown dispatches the first `n` Requests of `RQ`, in order, and when
every Write succeeds each open transport is sent exactly as many ADUs as it has Requests among them. That the Dispatcher moves is
a premise (log 17). -/
def Obligations.DispatcherDrainsQueue : Prop :=
  ∀ (ws : List WriteAnswer) (s : State) (rest : List Action), s.alive = true → s.shutdown = false →
    ws.length ≤ s.rq.length → s.agenda = ws.map .dispatch ++ rest →
    ∃ t, run ws.length s = .next t ∧ t.rq = s.rq.drop ws.length ∧ t.agenda = rest ∧
      ((∀ w ∈ ws, w = .ok) → ∀ u, s.isOpen u = true →
        (t.txOf u).length =
          (s.txOf u).length + ((s.rq.take ws.length).filter fun r => decide (r.origin = u)).length)

/-- R197, R265, R277: after shutdown, whatever happens, `shutdown` stays raised, nothing more is sent on any transport, and
every Request in `RQ` stays there. That they stay there through
destruction is the model's choice (log 8). -/
def Obligations.ShutdownAbandonsQueuedRequests : Prop :=
  ∀ (n : Nat) (s t : State), s.shutdown = true → run n s = .next t →
    t.shutdown = true ∧ streamsSame s t ∧ s.rq <+: t.rq

/-- R170, R29, R30, R168: after shutdown a task completes at most one more read. Once it has completed one, no read step of it
changes anything, however many steps of any agents come between. Which tasks may complete one is the model's choice (log 5),
and that a read step which is not enabled passes and changes nothing is its form (log 3). -/
def Obligations.OneLateReadAtMost : Prop :=
  ∀ (n : Nat) (s u v : State) (t : Transport) (a b : ReadAnswer) (rest rest' : List Action), Inv s → s.shutdown = true →
    a.possible s.readMax = true → step { s with agenda := .read t a :: rest } = .next u → run n u = .next v →
    step { v with agenda := .read t b :: rest' } = .next { v with agenda := rest' }

/-- A task that has no read in progress after shutdown takes no further read step: its read step changes nothing, and every
step of any agent keeps it so. It rests on R170 and speaks of it in the model's own terms: that a read in progress is the bit
`inRead` is the model's choice (log 5), and that a read step which is not enabled passes and changes nothing is the model's
form (log 3). -/
def Obligations.FinishedReaderStaysFinished : Prop :=
  ∀ (s : State) (t : Transport), s.shutdown = true → s.inReadOf t = false →
    (∀ a rest, step { s with agenda := .read t a :: rest } = .next { s with agenda := rest }) ∧
    ∀ u, step s = .next u → u.shutdown = true ∧ u.inReadOf t = false

/-- R161, R168, R171, R29, R30, R197, R28, R242: a step that is not enabled changes nothing. A read step is not enabled while
the transport is closed, while a Request of it is pending, after shutdown unless a read is in progress, or with more bytes
than a read can return; an enqueue step while the transport is closed, nothing is pending or `RQ` is full; a dispatch step
after shutdown or while `RQ` is empty; opening a port after shutdown or when all `N_SERIAL` are open; accepting a connection
after shutdown. None is once the Server is destroyed (log 8). That such a step passes as if nothing had happened is the
model's form (log 3). -/
def Obligations.DisabledStepChangesNothing : Prop :=
  ∀ (s : State) (rest : List Action),
    (∀ t a, s.alive = false ∨ s.isOpen t = false ∨ s.pendOf t ≠ none ∨ (s.shutdown = true ∧ s.inReadOf t = false) ∨
        (∃ rd, a = .bytes rd ∧ s.readMax < rd.length) →
      step { s with agenda := .read t a :: rest } = .next { s with agenda := rest }) ∧
    (∀ t, s.alive = false ∨ s.isOpen t = false ∨ s.pendOf t = none ∨ s.queueDepth ≤ s.rq.length →
      step { s with agenda := .enqueue t :: rest } = .next { s with agenda := rest }) ∧
    (∀ w, s.alive = false ∨ s.shutdown = true ∨ s.rq = [] →
      step { s with agenda := .dispatch w :: rest } = .next { s with agenda := rest }) ∧
    (s.alive = false ∨ s.shutdown = true ∨ s.nSerial ≤ s.ports.length →
      step { s with agenda := .openSerial :: rest } = .next { s with agenda := rest }) ∧
    (s.alive = false ∨ s.shutdown = true →
      step { s with agenda := .accept :: rest } = .next { s with agenda := rest })

/-- R30, R168, R42: a pending Request is never dropped or replaced. In every step of any agent it stays in `PEND[t]`, or goes
from there to the tail of `RQ`. That it stays there through destruction is the model's choice (log 8). -/
def Obligations.PendingRequestIsNeverDropped : Prop :=
  ∀ (s u : State) (t : Transport) (r : Request), s.pendOf t = some r → step s = .next u →
    u.pendOf t = some r ∨ (u.pendOf t = none ∧ u.rq = s.rq ++ [r])

/-- R238, R264, R242, R262, R28: the host and the listener. A transport is opened under a fresh name with nothing buffered,
pending or sent, a serial port only while fewer than `N_SERIAL` are open; shutdown sets the one bit and keeps banks, queue and
streams; destruction, after shutdown, closes every transport. The model's choices here: names by position (log 11); `open[t]`
is kept when shutdown is raised and falls at destruction (log 9); destruction ends the run and leaves what is observed of it
as it was, of which the spec says nothing (log 5, log 8). -/
def Obligations.HostControlSteps : Prop :=
  ∀ (s : State) (rest : List Action), s.alive = true →
    (s.shutdown = false →
      (s.ports.length < s.nSerial →
        ∃ t, step { s with agenda := .openSerial :: rest } = .next t ∧ t.ports = s.ports ++ [Port.fresh] ∧
          t.isOpen (.serial s.ports.length) = true ∧ t.rxbufOf s.ports.length = [] ∧
          t.pendOf (.serial s.ports.length) = none ∧ t.txOf (.serial s.ports.length) = []) ∧
      (∃ t, step { s with agenda := .accept :: rest } = .next t ∧ t.conns = s.conns ++ [Link.fresh] ∧
        t.isOpen (.tcp s.conns.length) = true ∧ t.pendOf (.tcp s.conns.length) = none ∧
        t.txOf (.tcp s.conns.length) = []) ∧
      ∃ t, step { s with agenda := .raiseShutdown :: rest } = .next t ∧ t.shutdown = true ∧ banksSame s t ∧
        streamsSame s t ∧ t.rq = s.rq ∧ t.alive = true ∧ ∀ u, t.isOpen u = s.isOpen u) ∧
    (s.shutdown = true →
      ∃ t, step { s with agenda := .destroy :: rest } = .next t ∧ t.alive = false ∧ runEnded t = true ∧
        observe t = observe s ∧ ∀ u, t.isOpen u = false)

/-! ## Whole runs -/

/-- The model's form (log 2): a step takes the first entry of the agenda away and depends on no other, so that an agenda is
the schedule of a run, one entry a step, as in `isRun`. -/
def Obligations.StepFollowsFirstEntry : Prop :=
  ∀ s t : State, step s = .next t →
    t.agenda = s.agenda.tail ∧ step { s with agenda := s.agenda.take 1 } = .next { t with agenda := [] }

/-- R6, R281, R198: in a run without end that is weakly fair and in which the Server lives and is not shut down, every Request
of `RQ` is eventually dispatched, after exactly those before it, and answered by one Response. -/
def Obligations.FairRunAnswersEveryRequest : Prop :=
  ∀ (acts : Nat → Option Action) (r : Nat → State), isRun acts r → weaklyFair acts r →
    (∀ n, (r n).alive = true ∧ (r n).shutdown = false) →
    ∀ n k q, (r n).rq[k]? = some q →
      ∃ m w tail resp, n ≤ m ∧ acts m = some (.dispatch w) ∧ (r m).rq = (r n).rq.drop k ++ tail ∧
        responds (instrOf q) { r m with agenda := [], rq := (r m).rq.tail, writeAnswer := w } (r (m + 1)) resp

/-- After shutdown nothing that is observed of a run changes, whatever steps come that are no `HostPoke`; and a run that has
ended stays ended. It rests on R266, R170 and R197. The model's choices here: that a run has ended when no bit `inRead` is left
(log 5), and that destruction, through which the steps may pass, leaves the banks and every `TX[t]` as they were (log 8). -/
def Obligations.NothingAfterShutdownIsObserved : Prop :=
  ∀ (n : Nat) (s t : State), s.shutdown = true → run n s = .next t →
    (noPokes s.agenda → observe t = observe s) ∧ (runEnded s = true → runEnded t = true)

/-- R266: the observable result is what each `TX[t]` holds and what the host reads in the four banks, and nothing else: with
banks in canonical form, two ended runs with as many transports have the same result if and only if they agree on these. -/
def Obligations.RunResultIsStreamsAndBanks : Prop :=
  ∀ s t : State, Memory.wf s = true → Memory.wf t = true → runEnded s = true → runEnded t = true →
    s.ports.length = t.ports.length → s.conns.length = t.conns.length →
    (runResult s = runResult t ↔ streamsSame s t ∧ banksSame s t)

/-! ## Whole-machine rules -/

/-- R196, R220, R228: no step of the machine faults or is refused. With an empty agenda it waits (log 2). -/
def Obligations.EveryStepHasANextState : Prop := ∀ s : State, ∃ t, step s = .next t

/-- Every step keeps the invariant: canonical banks below address 65536, at most 4 bytes buffered between steps (R167), at
most QUEUE_DEPTH Requests queued (R30), only Requests that a decoder accepted in `RQ` and `PEND[t]` (R199, R42), a read left
over from shutdown only of an open transport with nothing pending (R170, R168; log 5), at most N_SERIAL ports (R28), the parameters in
their ranges (R7), and a destroyed Server shut down with no open transport (R264). -/
def Obligations.StepKeepsInvariant : Prop := ∀ s t : State, Inv s → step s = .next t → Inv t

/-- The invariant holds after reset. What the reset state holds, item by item, is `ResetValues`. -/
def Obligations.ResetMeetsInvariant : Prop := Inv State.reset

/-- R39: the value of every piece of the spec's state after reset. -/
def Obligations.ResetValues : Prop :=
  (∀ b a, bankReadBit State.reset b a = false) ∧ (∀ b a, bankReadWord State.reset b a = 0#16) ∧
    (∀ p, State.reset.rxbufOf p = []) ∧ State.reset.rq = [] ∧ (∀ t, State.reset.pendOf t = none) ∧
    (∀ t, State.reset.txOf t = []) ∧ State.reset.shutdown = false ∧ (∀ t, State.reset.isOpen t = false) ∧
    ∀ i : Byte, crcEntry i = crcShift8 (i.setWidth 16)

/-- R21, R23, R237: a Discrete Input or an Input Register changes only in a HostPoke of its bank. -/
def Obligations.OnlyHostPokeChangesInputs : Prop :=
  ∀ s t : State, step s = .next t →
    (t.di = s.di ∨ ∃ a v, s.agenda.head? = some (.pokeBit .di a v)) ∧
    (t.ir = s.ir ∨ ∃ a v, s.agenda.head? = some (.pokeWord .ir a v))

/-- R160, R274: `RXBUF[p]` changes only in a read step of `SR[p]`. -/
def Obligations.BufferBelongsToItsReader : Prop :=
  ∀ (s t : State) (p : Nat), step s = .next t →
    t.rxbufOf p = s.rxbufOf p ∨ ∃ a, s.agenda.head? = some (.read (.serial p) a)

/-- R31, R241, R68: only a dispatch step sends, and only on the transport of the Request it took from the head of `RQ`. -/
def Obligations.OnlyDispatchTransmits : Prop :=
  ∀ (s t : State) (u : Transport), step s = .next t →
    t.txOf u = s.txOf u ∨
      (∃ w adu, s.agenda.head? = some (.dispatch w) ∧ t.txOf u = s.txOf u ++ [adu]) ∧
        ∃ r, s.rq = r :: t.rq ∧ r.origin = u

/-- R7, R35: no step changes a parameter of the instance. -/
def Obligations.ParametersAreConstant : Prop :=
  ∀ s t : State, step s = .next t → t.readMax = s.readMax ∧ t.queueDepth = s.queueDepth ∧ t.nSerial = s.nSerial
end

