-- ==== Sys2Proof/Laws/State.lean ====
section
/-! SUPPORT. What each update of the state leaves alone: one lemma per field per update. -/

namespace Sys2Proof.Machine

variable (s : State)

/-! ## Replacing a bank -/

@[simp] theorem setBits_co_co (m : Bank Bool) : (s.setBits .co m).co = m := rfl
@[simp] theorem setBits_co_di (m : Bank Bool) : (s.setBits .co m).di = s.di := rfl
@[simp] theorem setBits_di_co (m : Bank Bool) : (s.setBits .di m).co = s.co := rfl
@[simp] theorem setBits_di_di (m : Bank Bool) : (s.setBits .di m).di = m := rfl
@[simp] theorem setWords_hr_hr (m : Bank Word) : (s.setWords .hr m).hr = m := rfl
@[simp] theorem setWords_hr_ir (m : Bank Word) : (s.setWords .hr m).ir = s.ir := rfl
@[simp] theorem setWords_ir_hr (m : Bank Word) : (s.setWords .ir m).hr = s.hr := rfl
@[simp] theorem setWords_ir_ir (m : Bank Word) : (s.setWords .ir m).ir = m := rfl
@[simp] theorem bits_co : s.bits .co = s.co := rfl
@[simp] theorem bits_di : s.bits .di = s.di := rfl
@[simp] theorem words_hr : s.words .hr = s.hr := rfl
@[simp] theorem words_ir : s.words .ir = s.ir := rfl
@[simp] theorem setBits_hr (b : BitBank) (m : Bank Bool) : (s.setBits b m).hr = s.hr := by cases b <;> rfl
@[simp] theorem setBits_ir (b : BitBank) (m : Bank Bool) : (s.setBits b m).ir = s.ir := by cases b <;> rfl
@[simp] theorem setBits_ports (b : BitBank) (m : Bank Bool) : (s.setBits b m).ports = s.ports := by cases b <;> rfl
@[simp] theorem setBits_conns (b : BitBank) (m : Bank Bool) : (s.setBits b m).conns = s.conns := by cases b <;> rfl
@[simp] theorem setBits_rq (b : BitBank) (m : Bank Bool) : (s.setBits b m).rq = s.rq := by cases b <;> rfl
@[simp] theorem setBits_shutdown (b : BitBank) (m : Bank Bool) : (s.setBits b m).shutdown = s.shutdown := by cases b <;> rfl
@[simp] theorem setBits_alive (b : BitBank) (m : Bank Bool) : (s.setBits b m).alive = s.alive := by cases b <;> rfl
@[simp] theorem setBits_readMax (b : BitBank) (m : Bank Bool) : (s.setBits b m).readMax = s.readMax := by cases b <;> rfl
@[simp] theorem setBits_queueDepth (b : BitBank) (m : Bank Bool) : (s.setBits b m).queueDepth = s.queueDepth := by cases b <;> rfl
@[simp] theorem setBits_nSerial (b : BitBank) (m : Bank Bool) : (s.setBits b m).nSerial = s.nSerial := by cases b <;> rfl
@[simp] theorem setBits_agenda (b : BitBank) (m : Bank Bool) : (s.setBits b m).agenda = s.agenda := by cases b <;> rfl
@[simp] theorem setBits_writeAnswer (b : BitBank) (m : Bank Bool) : (s.setBits b m).writeAnswer = s.writeAnswer := by cases b <;> rfl
@[simp] theorem setBits_peeks (b : BitBank) (m : Bank Bool) : (s.setBits b m).peeks = s.peeks := by cases b <;> rfl
@[simp] theorem setWords_co (b : WordBank) (m : Bank Word) : (s.setWords b m).co = s.co := by cases b <;> rfl
@[simp] theorem setWords_di (b : WordBank) (m : Bank Word) : (s.setWords b m).di = s.di := by cases b <;> rfl
@[simp] theorem setWords_ports (b : WordBank) (m : Bank Word) : (s.setWords b m).ports = s.ports := by cases b <;> rfl
@[simp] theorem setWords_conns (b : WordBank) (m : Bank Word) : (s.setWords b m).conns = s.conns := by cases b <;> rfl
@[simp] theorem setWords_rq (b : WordBank) (m : Bank Word) : (s.setWords b m).rq = s.rq := by cases b <;> rfl
@[simp] theorem setWords_shutdown (b : WordBank) (m : Bank Word) : (s.setWords b m).shutdown = s.shutdown := by cases b <;> rfl
@[simp] theorem setWords_alive (b : WordBank) (m : Bank Word) : (s.setWords b m).alive = s.alive := by cases b <;> rfl
@[simp] theorem setWords_readMax (b : WordBank) (m : Bank Word) : (s.setWords b m).readMax = s.readMax := by cases b <;> rfl
@[simp] theorem setWords_queueDepth (b : WordBank) (m : Bank Word) : (s.setWords b m).queueDepth = s.queueDepth := by cases b <;> rfl
@[simp] theorem setWords_nSerial (b : WordBank) (m : Bank Word) : (s.setWords b m).nSerial = s.nSerial := by cases b <;> rfl
@[simp] theorem setWords_agenda (b : WordBank) (m : Bank Word) : (s.setWords b m).agenda = s.agenda := by cases b <;> rfl
@[simp] theorem setWords_writeAnswer (b : WordBank) (m : Bank Word) : (s.setWords b m).writeAnswer = s.writeAnswer := by cases b <;> rfl
@[simp] theorem setWords_peeks (b : WordBank) (m : Bank Word) : (s.setWords b m).peeks = s.peeks := by cases b <;> rfl

/-! ## Writing one element -/

@[simp] theorem bankWriteBit_hr (b : BitBank) (a : Nat) (v : Bool) :
    (bankWriteBit s b a v).hr = s.hr := setBits_hr ..
@[simp] theorem bankWriteBit_ir (b : BitBank) (a : Nat) (v : Bool) :
    (bankWriteBit s b a v).ir = s.ir := setBits_ir ..
@[simp] theorem bankWriteBit_ports (b : BitBank) (a : Nat) (v : Bool) :
    (bankWriteBit s b a v).ports = s.ports := setBits_ports ..
@[simp] theorem bankWriteBit_conns (b : BitBank) (a : Nat) (v : Bool) :
    (bankWriteBit s b a v).conns = s.conns := setBits_conns ..
@[simp] theorem bankWriteBit_rq (b : BitBank) (a : Nat) (v : Bool) :
    (bankWriteBit s b a v).rq = s.rq := setBits_rq ..
@[simp] theorem bankWriteBit_shutdown (b : BitBank) (a : Nat) (v : Bool) :
    (bankWriteBit s b a v).shutdown = s.shutdown := setBits_shutdown ..
@[simp] theorem bankWriteBit_alive (b : BitBank) (a : Nat) (v : Bool) :
    (bankWriteBit s b a v).alive = s.alive := setBits_alive ..
@[simp] theorem bankWriteBit_readMax (b : BitBank) (a : Nat) (v : Bool) :
    (bankWriteBit s b a v).readMax = s.readMax := setBits_readMax ..
@[simp] theorem bankWriteBit_queueDepth (b : BitBank) (a : Nat) (v : Bool) :
    (bankWriteBit s b a v).queueDepth = s.queueDepth := setBits_queueDepth ..
@[simp] theorem bankWriteBit_nSerial (b : BitBank) (a : Nat) (v : Bool) :
    (bankWriteBit s b a v).nSerial = s.nSerial := setBits_nSerial ..
@[simp] theorem bankWriteBit_agenda (b : BitBank) (a : Nat) (v : Bool) :
    (bankWriteBit s b a v).agenda = s.agenda := setBits_agenda ..
@[simp] theorem bankWriteBit_writeAnswer (b : BitBank) (a : Nat) (v : Bool) :
    (bankWriteBit s b a v).writeAnswer = s.writeAnswer := setBits_writeAnswer ..
@[simp] theorem bankWriteBit_peeks (b : BitBank) (a : Nat) (v : Bool) :
    (bankWriteBit s b a v).peeks = s.peeks := setBits_peeks ..
@[simp] theorem bankWriteWord_co (b : WordBank) (a : Nat) (v : Word) :
    (bankWriteWord s b a v).co = s.co := setWords_co ..
@[simp] theorem bankWriteWord_di (b : WordBank) (a : Nat) (v : Word) :
    (bankWriteWord s b a v).di = s.di := setWords_di ..
@[simp] theorem bankWriteWord_ports (b : WordBank) (a : Nat) (v : Word) :
    (bankWriteWord s b a v).ports = s.ports := setWords_ports ..
@[simp] theorem bankWriteWord_conns (b : WordBank) (a : Nat) (v : Word) :
    (bankWriteWord s b a v).conns = s.conns := setWords_conns ..
@[simp] theorem bankWriteWord_rq (b : WordBank) (a : Nat) (v : Word) :
    (bankWriteWord s b a v).rq = s.rq := setWords_rq ..
@[simp] theorem bankWriteWord_shutdown (b : WordBank) (a : Nat) (v : Word) :
    (bankWriteWord s b a v).shutdown = s.shutdown := setWords_shutdown ..
@[simp] theorem bankWriteWord_alive (b : WordBank) (a : Nat) (v : Word) :
    (bankWriteWord s b a v).alive = s.alive := setWords_alive ..
@[simp] theorem bankWriteWord_readMax (b : WordBank) (a : Nat) (v : Word) :
    (bankWriteWord s b a v).readMax = s.readMax := setWords_readMax ..
@[simp] theorem bankWriteWord_queueDepth (b : WordBank) (a : Nat) (v : Word) :
    (bankWriteWord s b a v).queueDepth = s.queueDepth := setWords_queueDepth ..
@[simp] theorem bankWriteWord_nSerial (b : WordBank) (a : Nat) (v : Word) :
    (bankWriteWord s b a v).nSerial = s.nSerial := setWords_nSerial ..
@[simp] theorem bankWriteWord_agenda (b : WordBank) (a : Nat) (v : Word) :
    (bankWriteWord s b a v).agenda = s.agenda := setWords_agenda ..
@[simp] theorem bankWriteWord_writeAnswer (b : WordBank) (a : Nat) (v : Word) :
    (bankWriteWord s b a v).writeAnswer = s.writeAnswer := setWords_writeAnswer ..
@[simp] theorem bankWriteWord_peeks (b : WordBank) (a : Nat) (v : Word) :
    (bankWriteWord s b a v).peeks = s.peeks := setWords_peeks ..
@[simp] theorem bankWriteBit_co_di (a : Nat) (v : Bool) : (bankWriteBit s .co a v).di = s.di := rfl
@[simp] theorem bankWriteBit_di_co (a : Nat) (v : Bool) : (bankWriteBit s .di a v).co = s.co := rfl
@[simp] theorem bankWriteWord_hr_ir (a : Nat) (v : Word) : (bankWriteWord s .hr a v).ir = s.ir := rfl
@[simp] theorem bankWriteWord_ir_hr (a : Nat) (v : Word) : (bankWriteWord s .ir a v).hr = s.hr := rfl

/-! ## Changing a link, sending -/

@[simp] theorem modLink_co (t : Transport) (f : Link → Link) : (s.modLink t f).co = s.co := by cases t <;> rfl
@[simp] theorem modLink_di (t : Transport) (f : Link → Link) : (s.modLink t f).di = s.di := by cases t <;> rfl
@[simp] theorem modLink_hr (t : Transport) (f : Link → Link) : (s.modLink t f).hr = s.hr := by cases t <;> rfl
@[simp] theorem modLink_ir (t : Transport) (f : Link → Link) : (s.modLink t f).ir = s.ir := by cases t <;> rfl
@[simp] theorem modLink_rq (t : Transport) (f : Link → Link) : (s.modLink t f).rq = s.rq := by cases t <;> rfl
@[simp] theorem modLink_shutdown (t : Transport) (f : Link → Link) : (s.modLink t f).shutdown = s.shutdown := by cases t <;> rfl
@[simp] theorem modLink_alive (t : Transport) (f : Link → Link) : (s.modLink t f).alive = s.alive := by cases t <;> rfl
@[simp] theorem modLink_readMax (t : Transport) (f : Link → Link) : (s.modLink t f).readMax = s.readMax := by cases t <;> rfl
@[simp] theorem modLink_queueDepth (t : Transport) (f : Link → Link) : (s.modLink t f).queueDepth = s.queueDepth := by cases t <;> rfl
@[simp] theorem modLink_nSerial (t : Transport) (f : Link → Link) : (s.modLink t f).nSerial = s.nSerial := by cases t <;> rfl
@[simp] theorem modLink_agenda (t : Transport) (f : Link → Link) : (s.modLink t f).agenda = s.agenda := by cases t <;> rfl
@[simp] theorem modLink_writeAnswer (t : Transport) (f : Link → Link) : (s.modLink t f).writeAnswer = s.writeAnswer := by cases t <;> rfl
@[simp] theorem modLink_peeks (t : Transport) (f : Link → Link) : (s.modLink t f).peeks = s.peeks := by cases t <;> rfl
@[simp] theorem transmit_co (t : Transport) (adu : List Byte) : (transmit t adu s).co = s.co := by
  unfold transmit; split <;> simp
@[simp] theorem transmit_di (t : Transport) (adu : List Byte) : (transmit t adu s).di = s.di := by
  unfold transmit; split <;> simp
@[simp] theorem transmit_hr (t : Transport) (adu : List Byte) : (transmit t adu s).hr = s.hr := by
  unfold transmit; split <;> simp
@[simp] theorem transmit_ir (t : Transport) (adu : List Byte) : (transmit t adu s).ir = s.ir := by
  unfold transmit; split <;> simp
@[simp] theorem transmit_rq (t : Transport) (adu : List Byte) : (transmit t adu s).rq = s.rq := by
  unfold transmit; split <;> simp
@[simp] theorem transmit_shutdown (t : Transport) (adu : List Byte) : (transmit t adu s).shutdown = s.shutdown := by
  unfold transmit; split <;> simp
@[simp] theorem transmit_alive (t : Transport) (adu : List Byte) : (transmit t adu s).alive = s.alive := by
  unfold transmit; split <;> simp
@[simp] theorem transmit_readMax (t : Transport) (adu : List Byte) : (transmit t adu s).readMax = s.readMax := by
  unfold transmit; split <;> simp
@[simp] theorem transmit_queueDepth (t : Transport) (adu : List Byte) : (transmit t adu s).queueDepth = s.queueDepth := by
  unfold transmit; split <;> simp
@[simp] theorem transmit_nSerial (t : Transport) (adu : List Byte) : (transmit t adu s).nSerial = s.nSerial := by
  unfold transmit; split <;> simp
@[simp] theorem transmit_agenda (t : Transport) (adu : List Byte) : (transmit t adu s).agenda = s.agenda := by
  unfold transmit; split <;> simp
@[simp] theorem transmit_writeAnswer (t : Transport) (adu : List Byte) : (transmit t adu s).writeAnswer = s.writeAnswer := by
  unfold transmit; split <;> simp
@[simp] theorem transmit_peeks (t : Transport) (adu : List Byte) : (transmit t adu s).peeks = s.peeks := by
  unfold transmit; split <;> simp

/-! ## The queue -/

@[simp] theorem enqueueRequest_rq (r : Request) : (enqueueRequest r s).rq = s.rq ++ [r] := rfl
@[simp] theorem enqueueRequest_co (r : Request) : (enqueueRequest r s).co = s.co := rfl
@[simp] theorem enqueueRequest_di (r : Request) : (enqueueRequest r s).di = s.di := rfl
@[simp] theorem enqueueRequest_hr (r : Request) : (enqueueRequest r s).hr = s.hr := rfl
@[simp] theorem enqueueRequest_ir (r : Request) : (enqueueRequest r s).ir = s.ir := rfl
@[simp] theorem enqueueRequest_ports (r : Request) : (enqueueRequest r s).ports = s.ports := rfl
@[simp] theorem enqueueRequest_conns (r : Request) : (enqueueRequest r s).conns = s.conns := rfl
@[simp] theorem enqueueRequest_shutdown (r : Request) : (enqueueRequest r s).shutdown = s.shutdown := rfl
@[simp] theorem enqueueRequest_alive (r : Request) : (enqueueRequest r s).alive = s.alive := rfl
@[simp] theorem enqueueRequest_readMax (r : Request) : (enqueueRequest r s).readMax = s.readMax := rfl
@[simp] theorem enqueueRequest_queueDepth (r : Request) : (enqueueRequest r s).queueDepth = s.queueDepth := rfl
@[simp] theorem enqueueRequest_nSerial (r : Request) : (enqueueRequest r s).nSerial = s.nSerial := rfl
@[simp] theorem enqueueRequest_agenda (r : Request) : (enqueueRequest r s).agenda = s.agenda := rfl
@[simp] theorem enqueueRequest_writeAnswer (r : Request) : (enqueueRequest r s).writeAnswer = s.writeAnswer := rfl
@[simp] theorem enqueueRequest_peeks (r : Request) : (enqueueRequest r s).peeks = s.peeks := rfl

/-! ## Links -/

@[simp] theorem readDone_isOpen (l : Link) : l.readDone.isOpen = l.isOpen := rfl
@[simp] theorem readDone_pend (l : Link) : l.readDone.pend = l.pend := rfl
@[simp] theorem readDone_tx (l : Link) : l.readDone.tx = l.tx := rfl
@[simp] theorem readDone_inRead (l : Link) : l.readDone.inRead = false := rfl
@[simp] theorem pending_isOpen (l : Link) (r : Request) : (l.pending r).isOpen = l.isOpen := rfl
@[simp] theorem pending_pend (l : Link) (r : Request) : (l.pending r).pend = some r := rfl
@[simp] theorem pending_tx (l : Link) (r : Request) : (l.pending r).tx = l.tx := rfl
@[simp] theorem pending_inRead (l : Link) (r : Request) : (l.pending r).inRead = l.inRead := rfl
@[simp] theorem atShutdown_isOpen (l : Link) : l.atShutdown.isOpen = l.isOpen := rfl
@[simp] theorem atShutdown_pend (l : Link) : l.atShutdown.pend = l.pend := rfl
@[simp] theorem atShutdown_tx (l : Link) : l.atShutdown.tx = l.tx := rfl
@[simp] theorem atShutdown_inRead (l : Link) : l.atShutdown.inRead = (l.isOpen && l.pend.isNone) := rfl
@[simp] theorem released_isOpen (l : Link) : l.released.isOpen = false := rfl
@[simp] theorem released_pend (l : Link) : l.released.pend = l.pend := rfl
@[simp] theorem released_tx (l : Link) : l.released.tx = l.tx := rfl
@[simp] theorem released_inRead (l : Link) : l.released.inRead = false := rfl

end Sys2Proof.Machine
end

