-- ==== Sys2Proof/Laws/Bank.lean ====
section
/-! SUPPORT. The laws of the register store: read after write, the canonical form, and what a run of writes does. -/

namespace Sys2Proof.Machine

variable {α : Type} [DecidableEq α] {d : α}

theorem bankWfFrom_cons {lo k : Nat} {v : α} {m : Bank α} :
    bankWfFrom d lo ((k, v) :: m) = true ↔
      lo ≤ k ∧ k < Config.bankCap ∧ v ≠ d ∧ bankWfFrom d (k + 1) m = true := by
  simp [bankWfFrom, and_assoc]

theorem bankWfFrom_mono {lo lo' : Nat} {m : Bank α} (h : lo' ≤ lo) (hm : bankWfFrom d lo m = true) :
    bankWfFrom d lo' m = true := by
  cases m with
  | nil => rfl
  | cons e m =>
    obtain ⟨k, v⟩ := e
    rw [bankWfFrom_cons] at *
    exact ⟨h.trans hm.1, hm.2⟩

/-- Below the least address a canonical bank may list, every element reads as unlisted. -/
theorem bankGet_below {lo a : Nat} {m : Bank α} (hm : bankWfFrom d lo m = true) (h : a < lo) : bankGet d m a = d := by
  induction m generalizing lo with
  | nil => rfl
  | cons e m ih =>
    obtain ⟨k, v⟩ := e
    rw [bankWfFrom_cons] at hm
    have hk : a ≠ k := by omega
    simpa [bankGet, hk] using ih hm.2.2.2 (by omega)

/-- Read after write. -/
theorem bankGet_bankPut {lo : Nat} {m : Bank α} (hm : bankWfFrom d lo m = true) (a b : Nat) (v : α) :
    bankGet d (bankPut d m a v) b = if b = a then v else bankGet d m b := by
  induction m generalizing lo with
  | nil => by_cases hv : v = d <;> simp [bankPut, bankGet, hv]
  | cons e m ih =>
    obtain ⟨k, w⟩ := e
    rw [bankWfFrom_cons] at hm
    have below : a < k + 1 → bankGet d m a = d := bankGet_below hm.2.2.2
    have rest := ih hm.2.2.2
    unfold bankPut
    by_cases hb : b = a
    · subst hb
      by_cases hlt : b < k
      · have hk : b ≠ k := by omega
        by_cases hv : v = d <;> simp [bankGet, hlt, hv, hk, below (by omega)]
      · by_cases hk : b = k
        · by_cases hv : v = d <;> simp [bankGet, hk, hv]
          exact hk ▸ below (by omega)
        · simpa [bankGet, hlt, hk] using rest
    · by_cases hlt : a < k
      · by_cases hv : v = d <;> simp [bankGet, hlt, hv, hb]
      · by_cases hk : a = k
        · have hbk : b ≠ k := fun h => hb (h.trans hk.symm)
          by_cases hv : v = d <;> simp [bankGet, hk, hv, hbk]
        · simp only [hlt, hk, if_false, hb, bankGet]
          rw [rest, if_neg hb]

/-- A write keeps the canonical form. -/
theorem bankWfFrom_bankPut {lo a : Nat} {m : Bank α} (hm : bankWfFrom d lo m = true) (hlo : lo ≤ a)
    (ha : a < Config.bankCap) (v : α) : bankWfFrom d lo (bankPut d m a v) = true := by
  induction m generalizing lo with
  | nil => by_cases hv : v = d <;> simp [bankPut, bankWfFrom, hv, hlo, ha]
  | cons e m ih =>
    obtain ⟨k, w⟩ := e
    have hm' := bankWfFrom_cons.mp hm
    unfold bankPut
    split_ifs with hak hv heq hv
    · exact hm
    · exact bankWfFrom_cons.mpr ⟨hlo, ha, hv, bankWfFrom_cons.mpr ⟨hak, hm'.2⟩⟩
    · exact bankWfFrom_mono (by omega) hm'.2.2.2
    · exact bankWfFrom_cons.mpr ⟨hlo, ha, hv, heq ▸ hm'.2.2.2⟩
    · exact bankWfFrom_cons.mpr ⟨hm'.1, hm'.2.1, hm'.2.2.1, ih hm'.2.2.2 (by omega)⟩

theorem bankWf_bankPut {a : Nat} {m : Bank α} (hm : bankWf d m = true) (ha : a < Config.bankCap) (v : α) :
    bankWf d (bankPut d m a v) = true := bankWfFrom_bankPut hm (Nat.zero_le a) ha v

/-- Equal contents are equal data: two canonical banks that read alike everywhere are the same list. -/
theorem bankWfFrom_ext {lo : Nat} {m m' : Bank α} (hm : bankWfFrom d lo m = true) (hm' : bankWfFrom d lo m' = true)
    (h : ∀ a, bankGet d m a = bankGet d m' a) : m = m' := by
  induction m generalizing lo m' with
  | nil =>
    cases m' with
    | nil => rfl
    | cons e m' =>
      obtain ⟨k, v⟩ := e
      exact absurd (by simpa [bankGet] using h k) (Ne.symm (bankWfFrom_cons.mp hm').2.2.1)
  | cons e m ih =>
    obtain ⟨k, v⟩ := e
    have c := bankWfFrom_cons.mp hm
    cases m' with
    | nil => exact absurd (by simpa [bankGet] using h k) c.2.2.1
    | cons e' m' =>
      obtain ⟨k', v'⟩ := e'
      have c' := bankWfFrom_cons.mp hm'
      have hk : k = k' := by
        rcases lt_trichotomy k k' with lt | rfl | gt
        · have := h k
          simp [bankGet, Nat.ne_of_lt lt, bankGet_below c'.2.2.2 (show k < k' + 1 by omega)] at this
          exact absurd this c.2.2.1
        · rfl
        · have := h k'
          simp [bankGet, Nat.ne_of_lt gt, bankGet_below c.2.2.2 (show k' < k + 1 by omega)] at this
          exact absurd this.symm c'.2.2.1
      subst hk
      have hv : v = v' := by simpa [bankGet] using h k
      have hrest : ∀ a, bankGet d m a = bankGet d m' a := by
        intro a
        by_cases ha : a = k
        · subst ha
          rw [bankGet_below c.2.2.2 (Nat.lt_succ_self a), bankGet_below c'.2.2.2 (Nat.lt_succ_self a)]
        · simpa [bankGet, ha] using h a
      rw [hv, ih c.2.2.2 c'.2.2.2 hrest]

theorem wrap_lt (a : Nat) : wrap a < Config.bankCap := Nat.mod_lt _ (by decide)

@[simp] theorem wrap_wrap (a : Nat) : wrap (wrap a) = wrap a := Nat.mod_mod _ _

/-! ## The four banks of a state -/

theorem memory_wf_iff (s : State) : Memory.wf s = true ↔
    bankWf false s.co = true ∧ bankWf false s.di = true ∧ bankWf 0#16 s.hr = true ∧ bankWf 0#16 s.ir = true := by
  simp [Memory.wf, and_assoc]

theorem bits_wf {s : State} (h : Memory.wf s = true) (b : BitBank) : bankWf false (s.bits b) = true := by
  rw [memory_wf_iff] at h
  cases b
  · exact h.1
  · exact h.2.1

theorem words_wf {s : State} (h : Memory.wf s = true) (b : WordBank) : bankWf 0#16 (s.words b) = true := by
  rw [memory_wf_iff] at h
  cases b
  · exact h.2.2.1
  · exact h.2.2.2

theorem bankWriteBit_wf {s : State} (h : Memory.wf s = true) (b : BitBank) (a : Nat) (v : Bool) :
    Memory.wf (bankWriteBit s b a v) = true := by
  have hb := bankWf_bankPut (bits_wf h b) (wrap_lt a) v
  rw [memory_wf_iff] at *
  cases b
  · exact ⟨hb, h.2⟩
  · exact ⟨h.1, hb, h.2.2⟩

theorem bankWriteWord_wf {s : State} (h : Memory.wf s = true) (b : WordBank) (a : Nat) (v : Word) :
    Memory.wf (bankWriteWord s b a v) = true := by
  have hb := bankWf_bankPut (words_wf h b) (wrap_lt a) v
  rw [memory_wf_iff] at *
  cases b
  · exact ⟨h.1, h.2.1, hb, h.2.2.2⟩
  · exact ⟨h.1, h.2.1, h.2.2.1, hb⟩

theorem writeBitRun_wf {s : State} (h : Memory.wf s = true) (b : BitBank) (addr : Word) (f : Nat → Bool) (n : Nat) :
    Memory.wf (writeBitRun b addr f n s) = true := by
  induction n with
  | zero => exact h
  | succ n ih => exact bankWriteBit_wf ih b _ _

theorem writeWordRun_wf {s : State} (h : Memory.wf s = true) (b : WordBank) (addr : Word) (f : Nat → Word) (n : Nat) :
    Memory.wf (writeWordRun b addr f n s) = true := by
  induction n with
  | zero => exact h
  | succ n ih => exact bankWriteWord_wf ih b _ _

/-- A run of coil writes changes nothing but the coils. -/
theorem writeBitRun_co_frame (addr : Word) (f : Nat → Bool) (n : Nat) (s : State) :
    ∃ m, writeBitRun .co addr f n s = { s with co := m } := by
  induction n with
  | zero => exact ⟨s.co, rfl⟩
  | succ n ih =>
    obtain ⟨m, hm⟩ := ih
    exact ⟨bankPut false m (wrap (elemAddr addr n)) (f n), by rw [writeBitRun, hm]; rfl⟩

/-- A run of register writes changes nothing but the Holding Registers. -/
theorem writeWordRun_hr_frame (addr : Word) (f : Nat → Word) (n : Nat) (s : State) :
    ∃ m, writeWordRun .hr addr f n s = { s with hr := m } := by
  induction n with
  | zero => exact ⟨s.hr, rfl⟩
  | succ n ih =>
    obtain ⟨m, hm⟩ := ih
    exact ⟨bankPut 0#16 m (wrap (elemAddr addr n)) (f n), by rw [writeWordRun, hm]; rfl⟩

end Sys2Proof.Machine
end

