-- ==== Sys2Proof/Laws/Exec.lean ====
section
/-! SUPPORT. What the shared operations of a dispatch step do, said once each, and what `exec` comes to. -/

namespace Sys2Proof.Machine

/-! ## Links -/

theorem link?_modLink (s : State) (t u : Transport) (f : Link → Link) :
    (s.modLink t f).link? u = if u = t then (s.link? u).map f else s.link? u := by
  cases t with
  | serial p =>
    cases u with
    | serial p' =>
      by_cases h : p = p'
      · subst h
        simp only [State.modLink, State.link?, if_true, List.getElem?_modify]
        cases s.ports[p]? <;> simp
      · have h' : ¬ p' = p := fun e => h e.symm
        simp only [State.modLink, State.link?, List.getElem?_modify, h, Transport.serial.injEq, h', if_false]
        cases s.ports[p']? <;> simp
    | tcp c' => simp [State.modLink, State.link?]
  | tcp c =>
    cases u with
    | serial p' => simp [State.modLink, State.link?]
    | tcp c' =>
      by_cases h : c = c'
      · subst h
        simp only [State.modLink, State.link?, if_true, List.getElem?_modify]
        cases s.conns[c]? <;> simp
      · have h' : ¬ c' = c := fun e => h e.symm
        simp only [State.modLink, State.link?, List.getElem?_modify, h, Transport.tcp.injEq, h', if_false]
        cases s.conns[c']? <;> simp

/-- `transmit` keeps every transport's open bit. -/
@[simp] theorem transmit_isOpen (t u : Transport) (adu : List Byte) (s : State) :
    (transmit t adu s).isOpen u = s.isOpen u := by
  unfold transmit
  split
  · simp only [State.isOpen, link?_modLink]
    split
    · cases s.link? u <;> rfl
    · rfl
  · rfl

/-- `transmit` keeps every pending Request. -/
@[simp] theorem transmit_pendOf (t u : Transport) (adu : List Byte) (s : State) :
    (transmit t adu s).pendOf u = s.pendOf u := by
  unfold transmit
  split
  · simp only [State.pendOf, link?_modLink]
    split
    · cases s.link? u <;> rfl
    · rfl
  · rfl

/-- What `transmit` does to the streams: one ADU more on the origin, if it is open and the device took it (R194, R195). -/
theorem transmit_txOf (t u : Transport) (adu : List Byte) (s : State) :
    (transmit t adu s).txOf u =
      if u = t ∧ s.isOpen t = true ∧ s.writeAnswer = .ok then s.txOf u ++ [adu] else s.txOf u := by
  unfold transmit
  by_cases h : s.isOpen t = true ∧ s.writeAnswer = .ok
  · rw [if_pos h]
    by_cases hu : u = t
    · subst hu
      rw [if_pos ⟨rfl, h⟩]
      have ho := h.1
      simp only [State.txOf, link?_modLink, if_true, State.isOpen] at ho ⊢
      cases hl : s.link? u with
      | none => simp [hl] at ho
      | some l => rfl
    · rw [if_neg (fun e => hu e.1)]
      simp [State.txOf, link?_modLink, hu]
  · rw [if_neg h, if_neg (fun e => h e.2)]

/-- `transmit` keeps every accumulation buffer. -/
@[simp] theorem transmit_rxbufOf (t : Transport) (p : Nat) (adu : List Byte) (s : State) :
    (transmit t adu s).rxbufOf p = s.rxbufOf p := by
  unfold transmit
  split
  · cases t with
    | tcp c => rfl
    | serial p' =>
      simp only [State.rxbufOf, State.modLink, List.getElem?_modify]
      cases s.ports[p]? with
      | none => rfl
      | some q => by_cases h : p' = p <;> simp [h]
  · rfl

/-! ## Sending -/

/-- A Frame short enough for either format is encoded. -/
theorem encodeFrame_some {f : Frame} (h : f.data.length ≤ Config.tcpMaxData) : ∃ adu, encodeFrame f = some adu := by
  unfold encodeFrame
  split
  · exact ⟨_, if_pos h⟩
  · exact ⟨_, rfl⟩

/-- Sending a Frame short enough for either format. -/
theorem sendFrame_next {resp : Frame} (t : Transport) (s : State) (h : resp.data.length ≤ Config.tcpMaxData) :
    ∃ adu, encodeFrame resp = some adu ∧ sendFrame t resp s = .next (transmit t adu s) := by
  obtain ⟨adu, ha⟩ := encodeFrame_some h
  exact ⟨adu, ha, by rw [sendFrame, ha]⟩

/-! ## The checks -/

/-- The data of a read that passes every check of R183. -/
theorem readOperands_ok {max : Nat} {data : List Byte}
    (h : data.length = 4 ∧ 1 ≤ countOf data ∧ countOf data ≤ max) :
    readOperands max data = .ok (addrOf data, countOf data) := by
  unfold readOperands
  rw [if_neg (by simp [h.1]), if_neg (by omega)]

/-- Any other data of a read (R226). -/
theorem readOperands_error {max : Nat} {data : List Byte}
    (h : ¬ (data.length = 4 ∧ 1 ≤ countOf data ∧ countOf data ≤ max)) :
    readOperands max data = .error .illegalDataValue := by
  unfold readOperands
  split_ifs with h1 h2
  · rfl
  · rfl
  · exact absurd ⟨not_not.mp h1, by omega, by omega⟩ h

/-- The data of a write that passes every check of R183. -/
theorem writeOperands_ok {max : Nat} {bytes : Nat → Nat} {data : List Byte}
    (h : 1 ≤ countOf data ∧ countOf data ≤ max ∧ (byteAt data 4).toNat = bytes (countOf data) ∧
      data.length = 5 + bytes (countOf data)) :
    writeOperands max bytes data = .ok (addrOf data, countOf data) := by
  unfold writeOperands
  rw [if_neg (by omega), if_neg (by omega), if_neg (by rw [not_or, not_not, not_not]; exact ⟨h.2.2.1, h.2.2.2⟩)]

/-- Any other data of a write (R226). -/
theorem writeOperands_error {max : Nat} {bytes : Nat → Nat} {data : List Byte}
    (h : ¬ (1 ≤ countOf data ∧ countOf data ≤ max ∧ (byteAt data 4).toNat = bytes (countOf data) ∧
      data.length = 5 + bytes (countOf data))) :
    writeOperands max bytes data = .error .illegalDataValue := by
  unfold writeOperands
  split_ifs with h1 h2 h3
  · rfl
  · rfl
  · rfl
  · rw [not_or, not_not, not_not] at h3
    exact absurd ⟨by omega, by omega, h3.1, h3.2⟩ h

/-! ## `exec` as a handler and its Response -/

/-- `Handle(fc, data)` (R182), for proofs: the outcome an instruction's handler gives and the state it leaves. -/
def handle : Instr → State → HandlerOutcome × State
  | .rdco _ data, s => handleReadBits .co data s
  | .rddi _ data, s => handleReadBits .di data s
  | .rdhr _ data, s => handleReadRegs .hr data s
  | .rdir _ data, s => handleReadRegs .ir data s
  | .wrmc _ data, s => handleWriteCoils data s
  | .wrmr _ data, s => handleWriteRegs data s
  | .illegal00 .., s | .illegal05 .., s | .illegal06 .., s | .illegal08 .., s | .illegal0C .., s
  | .illegal0E .., s | .illegal11 .., s | .illegal12 .., s | .illegal14 .., s | .illegal18 .., s
  | .illegal20 .., s | .illegal40 .., s | .illegal80 .., s => (.exception .illegalFunction, s)

/-- Every instruction is its handler followed by its Response. -/
theorem exec_eq_finish (i : Instr) (s : State) :
    exec i s = finish i.origin (i.ident.frame i.fc i.data) (handle i s) := by
  cases i <;> rfl

theorem bitsPayload_length (count : Nat) (f : Nat → Bool) : (bitsPayload count f).length = 1 + ceil8 count := by
  simp [bitsPayload, Nat.add_comm]

theorem regsPayload_length (count : Nat) (f : Nat → Word) : (regsPayload count f).length = 1 + 2 * count := by
  simp [regsPayload, wordBytes, List.length_flatMap, Nat.add_comm, Nat.mul_comm]

/-- What a handler can give: a payload of at most 251 bytes (R98), or one of two exceptions with the state untouched
(R183, R224, R227). -/
theorem handle_cases (i : Instr) (s : State) :
    (∃ p s', handle i s = (.success p, s') ∧ p.length ≤ 251) ∨
    handle i s = (.exception .illegalDataValue, s) ∨ handle i s = (.exception .illegalFunction, s) := by
  have bits : ∀ b data, (∃ p s', handleReadBits b data s = (.success p, s') ∧ p.length ≤ 251) ∨
      handleReadBits b data s = (.exception .illegalDataValue, s) := by
    intro b data
    by_cases h : data.length = 4 ∧ 1 ≤ countOf data ∧ countOf data ≤ Config.maxReadBits
    · refine .inl ⟨_, s, by rw [handleReadBits, readOperands_ok h], ?_⟩
      have := h.2.2
      simp only [bitsPayload_length, ceil8, Config.maxReadBits] at *
      omega
    · exact .inr (by rw [handleReadBits, readOperands_error h])
  have regs : ∀ b data, (∃ p s', handleReadRegs b data s = (.success p, s') ∧ p.length ≤ 251) ∨
      handleReadRegs b data s = (.exception .illegalDataValue, s) := by
    intro b data
    by_cases h : data.length = 4 ∧ 1 ≤ countOf data ∧ countOf data ≤ Config.maxReadRegs
    · refine .inl ⟨_, s, by rw [handleReadRegs, readOperands_ok h], ?_⟩
      have := h.2.2
      simp only [regsPayload_length, Config.maxReadRegs] at *
      omega
    · exact .inr (by rw [handleReadRegs, readOperands_error h])
  have writeLength : ∀ data : List Byte, (writePayload data).length ≤ 251 := by
    intro data
    simp only [writePayload, List.length_take]
    omega
  have coils : ∀ data, (∃ p s', handleWriteCoils data s = (.success p, s') ∧ p.length ≤ 251) ∨
      handleWriteCoils data s = (.exception .illegalDataValue, s) := by
    intro data
    unfold handleWriteCoils
    by_cases h : 1 ≤ countOf data ∧ countOf data ≤ Config.maxWriteBits ∧
        (byteAt data 4).toNat = ceil8 (countOf data) ∧ data.length = 5 + ceil8 (countOf data)
    · exact .inl ⟨_, _, by rw [writeOperands_ok h], writeLength data⟩
    · exact .inr (by rw [writeOperands_error h])
  have wregs : ∀ data, (∃ p s', handleWriteRegs data s = (.success p, s') ∧ p.length ≤ 251) ∨
      handleWriteRegs data s = (.exception .illegalDataValue, s) := by
    intro data
    unfold handleWriteRegs
    by_cases h : 1 ≤ countOf data ∧ countOf data ≤ Config.maxWriteRegs ∧
        (byteAt data 4).toNat = (2 * ·) (countOf data) ∧ data.length = 5 + (2 * ·) (countOf data)
    · exact .inl ⟨_, _, by rw [writeOperands_ok h], writeLength data⟩
    · exact .inr (by rw [writeOperands_error h])
  have lift : ∀ r : HandlerOutcome × State, (∃ p s', r = (.success p, s') ∧ p.length ≤ 251) ∨
      r = (.exception .illegalDataValue, s) →
      (∃ p s', r = (.success p, s') ∧ p.length ≤ 251) ∨
        r = (.exception .illegalDataValue, s) ∨ r = (.exception .illegalFunction, s) :=
    fun _ h => h.imp_right .inl
  cases i with
  | rdco q data => exact lift _ (bits .co data)
  | rddi q data => exact lift _ (bits .di data)
  | rdhr q data => exact lift _ (regs .hr data)
  | rdir q data => exact lift _ (regs .ir data)
  | wrmc q data => exact lift _ (coils data)
  | wrmr q data => exact lift _ (wregs data)
  | _ => exact .inr (.inr rfl)

/-- The Response of an outcome, before it is encoded (R192, R193). -/
def responseOf (req : Frame) : HandlerOutcome → Frame
  | .success payload => buildResponse req payload
  | .exception code => buildException req code

/-- A handled Request ends with its Response handed to the transport. -/
theorem finish_next (t : Transport) (req : Frame) (r : HandlerOutcome × State)
    (h : ∀ p, r.1 = .success p → p.length ≤ 251) :
    ∃ adu, encodeFrame (responseOf req r.1) = some adu ∧ finish t req r = .next (transmit t adu r.2) := by
  obtain ⟨o, s⟩ := r
  cases o with
  | success p =>
    have hp : p.length ≤ Config.tcpMaxData := (h p rfl).trans (by decide)
    exact sendFrame_next (resp := buildResponse req p) t s hp
  | exception c =>
    have hc : (buildException req c).data.length ≤ Config.tcpMaxData := by
      show 1 ≤ 65533
      decide
    exact sendFrame_next (resp := buildException req c) t s hc

end Sys2Proof.Machine
end

