-- ==== Sys2Proof/Laws/Claims.lean ====
section
/-! SUPPORT. The vocabulary of Sys2Proof/Safety.lean met by the operations: what sending a Response gives and keeps. -/

namespace Sys2Proof.Machine

/-- `s'` is `s` with other bank contents. -/
def banksOnly (s s' : State) : Prop := ∃ co di hr ir, s' = { s with co := co, di := di, hr := hr, ir := ir }

theorem banksOnly_refl (s : State) : banksOnly s s := ⟨s.co, s.di, s.hr, s.ir, rfl⟩

theorem handle_banksOnly (i : Instr) (s : State) : banksOnly s (handle i s).2 := by
  have bits : ∀ b data, (handleReadBits b data s).2 = s := by
    intro b data
    unfold handleReadBits
    split <;> rfl
  have regs : ∀ b data, (handleReadRegs b data s).2 = s := by
    intro b data
    unfold handleReadRegs
    split <;> rfl
  cases i with
  | rdco q data => exact (bits .co data).symm ▸ banksOnly_refl s
  | rddi q data => exact (bits .di data).symm ▸ banksOnly_refl s
  | rdhr q data => exact (regs .hr data).symm ▸ banksOnly_refl s
  | rdir q data => exact (regs .ir data).symm ▸ banksOnly_refl s
  | wrmc q data =>
    show banksOnly s (handleWriteCoils data s).2
    unfold handleWriteCoils
    split
    · exact banksOnly_refl s
    · rename_i addr count _
      obtain ⟨m, hm⟩ := writeBitRun_co_frame addr (coilOperand data) count s
      exact ⟨m, s.di, s.hr, s.ir, hm⟩
  | wrmr q data =>
    show banksOnly s (handleWriteRegs data s).2
    unfold handleWriteRegs
    split
    · exact banksOnly_refl s
    · rename_i addr count _
      obtain ⟨m, hm⟩ := writeWordRun_hr_frame addr (regOperand data) count s
      exact ⟨s.co, s.di, m, s.ir, hm⟩
  | _ => exact banksOnly_refl s

theorem quiet_link_transmit (t u : Transport) (adu : List Byte) (s : State) :
    ((transmit t adu s).link? u).map Link.quiet = (s.link? u).map Link.quiet := by
  unfold transmit
  split
  · rw [link?_modLink]
    split
    · cases s.link? u <;> rfl
    · rfl
  · rfl

/-- Sending from a state whose banks alone differ from `s` keeps the rest of `s`. -/
theorem restSame_transmit {s s' : State} (h : banksOnly s s') (t : Transport) (adu : List Byte) :
    restSame s (transmit t adu s') := by
  obtain ⟨co, di, hr, ir, rfl⟩ := h
  refine ⟨?_, ?_, ?_, ?_, ?_, ?_, ?_, ?_, ?_, fun u => ?_, fun p => ?_⟩
  iterate 9 simp
  · rw [quiet_link_transmit]
    cases u <;> rfl
  · rw [transmit_rxbufOf]
    rfl

/-- Sending from a state whose banks alone differ from `s` adds one ADU to one stream of `s`. -/
theorem streamGains_transmit {s s' : State} (h : banksOnly s s') (t : Transport) (adu : List Byte) :
    streamGains s (transmit t adu s') t adu := by
  obtain ⟨co, di, hr, ir, rfl⟩ := h
  intro u
  rw [transmit_txOf]
  cases u <;> cases t <;> rfl

/-- Sending changes no bank. -/
theorem banksSame_transmit (s : State) (t : Transport) (adu : List Byte) : banksSame s (transmit t adu s) := by
  constructor
  · intro b a
    cases b <;> simp [bankReadBit]
  · intro b a
    cases b <;> simp [bankReadWord]

/-- Every instruction completes: its handler's outcome is encoded and sent from the handler's state. -/
theorem exec_responds (i : Instr) (s : State) : ∃ adu,
    encodeFrame (responseOf (frameOf i) (handle i s).1) = some adu ∧
    exec i s = .next (transmit i.origin adu (handle i s).2) ∧
    responds i s (transmit i.origin adu (handle i s).2) (responseOf (frameOf i) (handle i s).1) := by
  have hlen : ∀ p, (handle i s).1 = .success p → p.length ≤ 251 := by
    intro p hp
    rcases handle_cases i s with ⟨p', s', h, hl⟩ | h | h
    · rw [h] at hp
      cases hp
      exact hl
    · rw [h] at hp
      cases hp
    · rw [h] at hp
      cases hp
  obtain ⟨adu, he, hf⟩ := finish_next i.origin (frameOf i) (handle i s) hlen
  have hx : exec i s = .next (transmit i.origin adu (handle i s).2) := (exec_eq_finish i s).trans hf
  have hb := handle_banksOnly i s
  exact ⟨adu, he, hx, hx, adu, he, streamGains_transmit hb _ _, restSame_transmit hb _ _⟩

end Sys2Proof.Machine
end

