-- ==== Sys2Proof/Laws/Codec.lean ====
section
/-! SUPPORT. Bytes of words and words of bytes, and the shape of what the codec builds. -/

namespace Sys2Proof

open Machine

@[simp] theorem u16be_hi8_lo8 (w : Word) : u16be (hi8 w) (lo8 w) = w := by
  apply BitVec.eq_of_getLsbD_eq
  intro i hi
  simp only [u16be, hi8, lo8, BitVec.getLsbD_append, BitVec.getLsbD_extractLsb']
  by_cases h : i < 8
  · simp [h]
  · simp [h, show 8 + (i - 8) = i by omega]
    omega

@[simp] theorem u16le_lo8_hi8 (w : Word) : u16le (lo8 w) (hi8 w) = w := u16be_hi8_lo8 w

@[simp] theorem hi8_u16be (h l : Byte) : hi8 (u16be h l) = h := by
  apply BitVec.eq_of_getLsbD_eq
  intro i hi
  simp only [u16be, hi8, BitVec.getLsbD_append, BitVec.getLsbD_extractLsb']
  simp [hi]

@[simp] theorem lo8_u16be (h l : Byte) : lo8 (u16be h l) = l := by
  apply BitVec.eq_of_getLsbD_eq
  intro i hi
  simp only [u16be, lo8, BitVec.getLsbD_append, BitVec.getLsbD_extractLsb']
  simp [hi]

/-- `u16be(h, l) = 256 * h + l` (spec/00_scope.md R8). -/
theorem u16be_toNat (h l : Byte) : (u16be h l).toNat = 256 * h.toNat + l.toNat := by
  have hl := l.isLt
  simp only [u16be, BitVec.toNat_append, Nat.shiftLeft_eq]
  rw [← Nat.shiftLeft_eq, ← Nat.shiftLeft_add_eq_or_of_lt (by omega), Nat.shiftLeft_eq]
  omega

theorem hi8_toNat (w : Word) : (hi8 w).toNat = w.toNat / 256 := by
  have := w.isLt
  simp only [hi8, BitVec.extractLsb'_toNat, Nat.shiftRight_eq_div_pow]
  omega

theorem lo8_toNat (w : Word) : (lo8 w).toNat = w.toNat % 256 := by
  simp [lo8, BitVec.extractLsb'_toNat]

@[simp] theorem byteAt_cons_zero (b : Byte) (s : List Byte) : byteAt (b :: s) 0 = b := rfl

@[simp] theorem byteAt_cons_succ (b : Byte) (s : List Byte) (i : Nat) : byteAt (b :: s) (i + 1) = byteAt s i := rfl

/-- A list of at least two bytes without its last two, with its last two. -/
theorem take_append_last_two (b : List Byte) (h : 2 ≤ b.length) :
    b = b.take (b.length - 2) ++ [byteAt b (b.length - 2), byteAt b (b.length - 1)] := by
  apply List.ext_getElem
  · simp
    omega
  · intro i h1 h2
    by_cases hi : i < b.length - 2
    · rw [List.getElem_append_left (by simp; omega)]
      simp
    · rw [List.getElem_append_right (by simp; omega)]
      have : i - (b.take (b.length - 2)).length = i - (b.length - 2) := by simp
      rcases (by omega : i = b.length - 2 ∨ i = b.length - 1) with rfl | rfl
      · simp [byteAt, List.getD_eq_getElem?_getD, List.getElem?_eq_getElem h1]
      · have e : b.length - 1 - (b.length - 2) = 1 := by omega
        simp [byteAt, List.getD_eq_getElem?_getD, List.getElem?_eq_getElem h1, e]

@[simp] theorem tcpAdu_length (txn proto : Word) (unit fc : Byte) (data : List Byte) :
    (tcpAdu txn proto unit fc data).length = 8 + data.length := by
  simp [tcpAdu, wordBytes]
  omega

@[simp] theorem encodeRtu_length (f : Frame) : (encodeRtu f).length = 4 + f.data.length := by
  simp [encodeRtu, rtuBody, crcBytes]
  omega

end Sys2Proof
end

