-- ==== Sys2Proof/Laws/Crc.lean ====
section
/-! SUPPORT. The CRC is linear: the eight shifts of an exclusive-or are the exclusive-or of the eight shifts, so a word can be
split into its two bytes (spec/40_crc16.md R130 to R132). -/

namespace Sys2Proof.Machine

theorem crcShift_xor (x y : Word) : crcShift (x ^^^ y) = crcShift x ^^^ crcShift y := by
  unfold crcShift
  rw [BitVec.ushiftRight_xor_distrib, BitVec.getLsbD_xor]
  cases x.getLsbD 0 <;> cases y.getLsbD 0 <;> simp
  · ac_rfl
  · ac_rfl
  · generalize x >>> 1 = a
    generalize y >>> 1 = b
    have : a ^^^ Config.crcPoly ^^^ (b ^^^ Config.crcPoly) = a ^^^ b ^^^ (Config.crcPoly ^^^ Config.crcPoly) := by
      ac_rfl
    simp [this]

theorem crcShift8_xor (x y : Word) : crcShift8 (x ^^^ y) = crcShift8 x ^^^ crcShift8 y := by
  simp only [crcShift8, crcShift_xor]

/-- A byte in the high half only moves down. -/
theorem crcShift8_high : ∀ b : Byte, crcShift8 (b ++ 0#8) = b.setWidth 16 := by decide +kernel

/-- A word is its high byte and its low byte. -/
theorem word_eq_high_xor_low (c : Word) : c = (c.extractLsb' 8 8 ++ 0#8) ^^^ (c.extractLsb' 0 8).setWidth 16 := by
  apply BitVec.eq_of_getLsbD_eq
  intro i hi
  simp only [BitVec.getLsbD_xor, BitVec.getLsbD_append, BitVec.getLsbD_setWidth, BitVec.getLsbD_extractLsb',
    BitVec.getLsbD_zero]
  by_cases h : i < 8
  · simp [h, hi]
  · simp [h, show 8 + (i - 8) = i by omega]
    omega

theorem high_setWidth (c : Word) : (c.extractLsb' 8 8).setWidth 16 = c >>> 8 := by
  apply BitVec.eq_of_getLsbD_eq
  intro i hi
  simp only [BitVec.getLsbD_setWidth, BitVec.getLsbD_extractLsb', BitVec.getLsbD_ushiftRight]
  by_cases h : i < 8
  · simp [h, hi]
  · simp [h]
    rw [BitVec.getLsbD_of_ge]
    omega

theorem crc16_append (s t : List Byte) : crc16 (s ++ t) = t.foldl crcUpdate (crc16 s) := by
  simp [crc16, List.foldl_append]

end Sys2Proof.Machine
end

