-- ==== Sys2Proof/Laws/PerInstr.lean ====
section
/-! SUPPORT. Per-instruction lemmas: the opcode table's row of an instruction's function code is the instruction's own row. -/

namespace Sys2Proof.Laws.TableRow

open Machine

/-- An instruction's Request selects that instruction (spec/30_encoding.md R102 to R104). -/
def Statement (i : Instr) : Prop := instrOf i.toRequest = i

theorem rdco (q : Ident) (data : List Byte) : Statement (.rdco q data) := rfl
theorem rddi (q : Ident) (data : List Byte) : Statement (.rddi q data) := rfl
theorem rdhr (q : Ident) (data : List Byte) : Statement (.rdhr q data) := rfl
theorem rdir (q : Ident) (data : List Byte) : Statement (.rdir q data) := rfl
theorem wrmc (q : Ident) (data : List Byte) : Statement (.wrmc q data) := rfl
theorem wrmr (q : Ident) (data : List Byte) : Statement (.wrmr q data) := rfl
theorem illegal00 (q : Ident) (data : List Byte) : Statement (.illegal00 q data) := rfl
theorem illegal05 (q : Ident) (data : List Byte) : Statement (.illegal05 q data) := rfl

theorem illegal06_fc : ∀ lo : BitVec 1, ∀ fc, fc = illegalFc 0x06#8 lo →
      ¬ (fc = 0x01#8) ∧ ¬ (fc = 0x02#8) ∧ ¬ (fc = 0x03#8) ∧ ¬ (fc = 0x04#8) ∧ ¬ (fc = 0x0F#8) ∧
      ¬ (fc = 0x10#8) ∧ ¬ (fc = 0x00#8) ∧ ¬ (fc = 0x05#8) ∧ fc &&& 0xFE#8 = 0x06#8 ∧ fc.setWidth 1 = lo := by
  simp only [forall_eq]
  decide

theorem illegal06 (q : Ident) (lo : BitVec 1) (data : List Byte) : Statement (.illegal06 q lo data) := by
  have h := illegal06_fc lo _ rfl
  show instrOfParts q (illegalFc 0x06#8 lo) data = _
  simp [instrOfParts, h]


theorem illegal08_fc : ∀ lo : BitVec 2, ∀ fc, fc = illegalFc 0x08#8 lo →
      ¬ (fc = 0x01#8) ∧ ¬ (fc = 0x02#8) ∧ ¬ (fc = 0x03#8) ∧ ¬ (fc = 0x04#8) ∧ ¬ (fc = 0x0F#8) ∧
      ¬ (fc = 0x10#8) ∧ ¬ (fc = 0x00#8) ∧ ¬ (fc = 0x05#8) ∧ ¬ (fc &&& 0xFE#8 = 0x06#8) ∧
      fc &&& 0xFC#8 = 0x08#8 ∧ fc.setWidth 2 = lo := by
  simp only [forall_eq]
  decide

theorem illegal08 (q : Ident) (lo : BitVec 2) (data : List Byte) : Statement (.illegal08 q lo data) := by
  have h := illegal08_fc lo _ rfl
  show instrOfParts q (illegalFc 0x08#8 lo) data = _
  simp [instrOfParts, h]


theorem illegal0C_fc : ∀ lo : BitVec 1, ∀ fc, fc = illegalFc 0x0C#8 lo →
      ¬ (fc = 0x01#8) ∧ ¬ (fc = 0x02#8) ∧ ¬ (fc = 0x03#8) ∧ ¬ (fc = 0x04#8) ∧ ¬ (fc = 0x0F#8) ∧
      ¬ (fc = 0x10#8) ∧ ¬ (fc = 0x00#8) ∧ ¬ (fc = 0x05#8) ∧ ¬ (fc &&& 0xFE#8 = 0x06#8) ∧
      ¬ (fc &&& 0xFC#8 = 0x08#8) ∧ fc &&& 0xFE#8 = 0x0C#8 ∧ fc.setWidth 1 = lo := by
  simp only [forall_eq]
  decide

theorem illegal0C (q : Ident) (lo : BitVec 1) (data : List Byte) : Statement (.illegal0C q lo data) := by
  have h := illegal0C_fc lo _ rfl
  show instrOfParts q (illegalFc 0x0C#8 lo) data = _
  simp [instrOfParts, h]

theorem illegal0E (q : Ident) (data : List Byte) : Statement (.illegal0E q data) := by
  show instrOfParts q 0x0E#8 data = _
  simp [instrOfParts]
theorem illegal11 (q : Ident) (data : List Byte) : Statement (.illegal11 q data) := by
  show instrOfParts q 0x11#8 data = _
  simp [instrOfParts]

theorem illegal12_fc : ∀ lo : BitVec 1, ∀ fc, fc = illegalFc 0x12#8 lo →
      ¬ (fc = 0x01#8) ∧ ¬ (fc = 0x02#8) ∧ ¬ (fc = 0x03#8) ∧ ¬ (fc = 0x04#8) ∧ ¬ (fc = 0x0F#8) ∧
      ¬ (fc = 0x10#8) ∧ ¬ (fc = 0x00#8) ∧ ¬ (fc = 0x05#8) ∧ ¬ (fc &&& 0xFE#8 = 0x06#8) ∧
      ¬ (fc &&& 0xFC#8 = 0x08#8) ∧ ¬ (fc &&& 0xFE#8 = 0x0C#8) ∧ ¬ (fc = 0x0E#8) ∧ ¬ (fc = 0x11#8) ∧
      fc &&& 0xFE#8 = 0x12#8 ∧ fc.setWidth 1 = lo := by
  simp only [forall_eq]
  decide

theorem illegal12 (q : Ident) (lo : BitVec 1) (data : List Byte) : Statement (.illegal12 q lo data) := by
  have h := illegal12_fc lo _ rfl
  show instrOfParts q (illegalFc 0x12#8 lo) data = _
  simp [instrOfParts, h]


theorem illegal14_fc : ∀ lo : BitVec 2, ∀ fc, fc = illegalFc 0x14#8 lo →
      ¬ (fc = 0x01#8) ∧ ¬ (fc = 0x02#8) ∧ ¬ (fc = 0x03#8) ∧ ¬ (fc = 0x04#8) ∧ ¬ (fc = 0x0F#8) ∧
      ¬ (fc = 0x10#8) ∧ ¬ (fc = 0x00#8) ∧ ¬ (fc = 0x05#8) ∧ ¬ (fc &&& 0xFE#8 = 0x06#8) ∧
      ¬ (fc &&& 0xFC#8 = 0x08#8) ∧ ¬ (fc &&& 0xFE#8 = 0x0C#8) ∧ ¬ (fc = 0x0E#8) ∧ ¬ (fc = 0x11#8) ∧
      ¬ (fc &&& 0xFE#8 = 0x12#8) ∧ fc &&& 0xFC#8 = 0x14#8 ∧ fc.setWidth 2 = lo := by
  simp only [forall_eq]
  decide

theorem illegal14 (q : Ident) (lo : BitVec 2) (data : List Byte) : Statement (.illegal14 q lo data) := by
  have h := illegal14_fc lo _ rfl
  show instrOfParts q (illegalFc 0x14#8 lo) data = _
  simp [instrOfParts, h]


theorem illegal18_fc : ∀ lo : BitVec 3, ∀ fc, fc = illegalFc 0x18#8 lo →
      ¬ (fc = 0x01#8) ∧ ¬ (fc = 0x02#8) ∧ ¬ (fc = 0x03#8) ∧ ¬ (fc = 0x04#8) ∧ ¬ (fc = 0x0F#8) ∧
      ¬ (fc = 0x10#8) ∧ ¬ (fc = 0x00#8) ∧ ¬ (fc = 0x05#8) ∧ ¬ (fc &&& 0xFE#8 = 0x06#8) ∧
      ¬ (fc &&& 0xFC#8 = 0x08#8) ∧ ¬ (fc &&& 0xFE#8 = 0x0C#8) ∧ ¬ (fc = 0x0E#8) ∧ ¬ (fc = 0x11#8) ∧
      ¬ (fc &&& 0xFE#8 = 0x12#8) ∧ ¬ (fc &&& 0xFC#8 = 0x14#8) ∧ fc &&& 0xF8#8 = 0x18#8 ∧ fc.setWidth 3 = lo := by
  simp only [forall_eq]
  decide

theorem illegal18 (q : Ident) (lo : BitVec 3) (data : List Byte) : Statement (.illegal18 q lo data) := by
  have h := illegal18_fc lo _ rfl
  show instrOfParts q (illegalFc 0x18#8 lo) data = _
  simp [instrOfParts, h]


theorem illegal20_fc : ∀ lo : BitVec 5, ∀ fc, fc = illegalFc 0x20#8 lo →
      ¬ (fc = 0x01#8) ∧ ¬ (fc = 0x02#8) ∧ ¬ (fc = 0x03#8) ∧ ¬ (fc = 0x04#8) ∧ ¬ (fc = 0x0F#8) ∧
      ¬ (fc = 0x10#8) ∧ ¬ (fc = 0x00#8) ∧ ¬ (fc = 0x05#8) ∧ ¬ (fc &&& 0xFE#8 = 0x06#8) ∧
      ¬ (fc &&& 0xFC#8 = 0x08#8) ∧ ¬ (fc &&& 0xFE#8 = 0x0C#8) ∧ ¬ (fc = 0x0E#8) ∧ ¬ (fc = 0x11#8) ∧
      ¬ (fc &&& 0xFE#8 = 0x12#8) ∧ ¬ (fc &&& 0xFC#8 = 0x14#8) ∧ ¬ (fc &&& 0xF8#8 = 0x18#8) ∧
      fc &&& 0xE0#8 = 0x20#8 ∧ fc.setWidth 5 = lo := by
  simp only [forall_eq]
  decide

theorem illegal20 (q : Ident) (lo : BitVec 5) (data : List Byte) : Statement (.illegal20 q lo data) := by
  have h := illegal20_fc lo _ rfl
  show instrOfParts q (illegalFc 0x20#8 lo) data = _
  simp [instrOfParts, h]


theorem illegal40_fc : ∀ lo : BitVec 6, ∀ fc, fc = illegalFc 0x40#8 lo →
      ¬ (fc = 0x01#8) ∧ ¬ (fc = 0x02#8) ∧ ¬ (fc = 0x03#8) ∧ ¬ (fc = 0x04#8) ∧ ¬ (fc = 0x0F#8) ∧
      ¬ (fc = 0x10#8) ∧ ¬ (fc = 0x00#8) ∧ ¬ (fc = 0x05#8) ∧ ¬ (fc &&& 0xFE#8 = 0x06#8) ∧
      ¬ (fc &&& 0xFC#8 = 0x08#8) ∧ ¬ (fc &&& 0xFE#8 = 0x0C#8) ∧ ¬ (fc = 0x0E#8) ∧ ¬ (fc = 0x11#8) ∧
      ¬ (fc &&& 0xFE#8 = 0x12#8) ∧ ¬ (fc &&& 0xFC#8 = 0x14#8) ∧ ¬ (fc &&& 0xF8#8 = 0x18#8) ∧
      ¬ (fc &&& 0xE0#8 = 0x20#8) ∧ fc &&& 0xC0#8 = 0x40#8 ∧ fc.setWidth 6 = lo := by
  simp only [forall_eq]
  decide

theorem illegal40 (q : Ident) (lo : BitVec 6) (data : List Byte) : Statement (.illegal40 q lo data) := by
  have h := illegal40_fc lo _ rfl
  show instrOfParts q (illegalFc 0x40#8 lo) data = _
  simp [instrOfParts, h]


theorem illegal80_fc : ∀ lo : BitVec 7, ∀ fc, fc = illegalFc 0x80#8 lo →
      ¬ (fc = 0x01#8) ∧ ¬ (fc = 0x02#8) ∧ ¬ (fc = 0x03#8) ∧ ¬ (fc = 0x04#8) ∧ ¬ (fc = 0x0F#8) ∧
      ¬ (fc = 0x10#8) ∧ ¬ (fc = 0x00#8) ∧ ¬ (fc = 0x05#8) ∧ ¬ (fc &&& 0xFE#8 = 0x06#8) ∧
      ¬ (fc &&& 0xFC#8 = 0x08#8) ∧ ¬ (fc &&& 0xFE#8 = 0x0C#8) ∧ ¬ (fc = 0x0E#8) ∧ ¬ (fc = 0x11#8) ∧
      ¬ (fc &&& 0xFE#8 = 0x12#8) ∧ ¬ (fc &&& 0xFC#8 = 0x14#8) ∧ ¬ (fc &&& 0xF8#8 = 0x18#8) ∧
      ¬ (fc &&& 0xE0#8 = 0x20#8) ∧ ¬ (fc &&& 0xC0#8 = 0x40#8) ∧ fc.setWidth 7 = lo := by
  simp only [forall_eq]
  decide

theorem illegal80 (q : Ident) (lo : BitVec 7) (data : List Byte) : Statement (.illegal80 q lo data) := by
  have h := illegal80_fc lo _ rfl
  show instrOfParts q (illegalFc 0x80#8 lo) data = _
  simp [instrOfParts, h]

end Sys2Proof.Laws.TableRow

namespace Sys2Proof

open Machine

/-- A code that fits no other row of the table has bit 7 set: the last row covers it. -/
theorem last_row_covers : ∀ fc : Byte,
    fc = 0x01#8 ∨ fc = 0x02#8 ∨ fc = 0x03#8 ∨ fc = 0x04#8 ∨ fc = 0x0F#8 ∨ fc = 0x10#8 ∨ fc = 0x00#8 ∨ fc = 0x05#8 ∨
    fc &&& 0xFE#8 = 0x06#8 ∨ fc &&& 0xFC#8 = 0x08#8 ∨ fc &&& 0xFE#8 = 0x0C#8 ∨ fc = 0x0E#8 ∨ fc = 0x11#8 ∨
    fc &&& 0xFE#8 = 0x12#8 ∨ fc &&& 0xFC#8 = 0x14#8 ∨ fc &&& 0xF8#8 = 0x18#8 ∨ fc &&& 0xE0#8 = 0x20#8 ∨
    fc &&& 0xC0#8 = 0x40#8 ∨ illegalFc 0x80#8 (fc.setWidth 7) = fc := by decide +kernel

theorem illegalFc_06 : ∀ fc : Byte, fc &&& 0xFE#8 = 0x06#8 → illegalFc 0x06#8 (fc.setWidth 1) = fc := by
  decide +kernel
theorem illegalFc_08 : ∀ fc : Byte, fc &&& 0xFC#8 = 0x08#8 → illegalFc 0x08#8 (fc.setWidth 2) = fc := by
  decide +kernel
theorem illegalFc_0C : ∀ fc : Byte, fc &&& 0xFE#8 = 0x0C#8 → illegalFc 0x0C#8 (fc.setWidth 1) = fc := by
  decide +kernel
theorem illegalFc_12 : ∀ fc : Byte, fc &&& 0xFE#8 = 0x12#8 → illegalFc 0x12#8 (fc.setWidth 1) = fc := by
  decide +kernel
theorem illegalFc_14 : ∀ fc : Byte, fc &&& 0xFC#8 = 0x14#8 → illegalFc 0x14#8 (fc.setWidth 2) = fc := by
  decide +kernel
theorem illegalFc_18 : ∀ fc : Byte, fc &&& 0xF8#8 = 0x18#8 → illegalFc 0x18#8 (fc.setWidth 3) = fc := by
  decide +kernel
theorem illegalFc_20 : ∀ fc : Byte, fc &&& 0xE0#8 = 0x20#8 → illegalFc 0x20#8 (fc.setWidth 5) = fc := by
  decide +kernel
theorem illegalFc_40 : ∀ fc : Byte, fc &&& 0xC0#8 = 0x40#8 → illegalFc 0x40#8 (fc.setWidth 6) = fc := by
  decide +kernel

/-- A predicate of a choice, from the choice's two sides. -/
theorem ite_holds {P : Instr → Prop} {c : Prop} [Decidable c] {a b : Instr} (ha : c → P a) (hb : ¬ c → P b) :
    P (if c then a else b) := by
  by_cases h : c
  · rw [if_pos h]
    exact ha h
  · rw [if_neg h]
    exact hb h

/-- Classifying a request by its function code keeps the code. -/
theorem instrOfParts_fc (q : Ident) (fc : Byte) (data : List Byte) : (instrOfParts q fc data).fc = fc := by
  unfold instrOfParts
  refine ite_holds (P := fun i => i.fc = fc) (fun h => h.symm) fun h1 => ?_
  refine ite_holds (P := fun i => i.fc = fc) (fun h => h.symm) fun h2 => ?_
  refine ite_holds (P := fun i => i.fc = fc) (fun h => h.symm) fun h3 => ?_
  refine ite_holds (P := fun i => i.fc = fc) (fun h => h.symm) fun h4 => ?_
  refine ite_holds (P := fun i => i.fc = fc) (fun h => h.symm) fun h5 => ?_
  refine ite_holds (P := fun i => i.fc = fc) (fun h => h.symm) fun h6 => ?_
  refine ite_holds (P := fun i => i.fc = fc) (fun h => h.symm) fun h7 => ?_
  refine ite_holds (P := fun i => i.fc = fc) (fun h => h.symm) fun h8 => ?_
  refine ite_holds (P := fun i => i.fc = fc) (illegalFc_06 fc) fun h9 => ?_
  refine ite_holds (P := fun i => i.fc = fc) (illegalFc_08 fc) fun h10 => ?_
  refine ite_holds (P := fun i => i.fc = fc) (illegalFc_0C fc) fun h11 => ?_
  refine ite_holds (P := fun i => i.fc = fc) (fun h => h.symm) fun h12 => ?_
  refine ite_holds (P := fun i => i.fc = fc) (fun h => h.symm) fun h13 => ?_
  refine ite_holds (P := fun i => i.fc = fc) (illegalFc_12 fc) fun h14 => ?_
  refine ite_holds (P := fun i => i.fc = fc) (illegalFc_14 fc) fun h15 => ?_
  refine ite_holds (P := fun i => i.fc = fc) (illegalFc_18 fc) fun h16 => ?_
  refine ite_holds (P := fun i => i.fc = fc) (illegalFc_20 fc) fun h17 => ?_
  refine ite_holds (P := fun i => i.fc = fc) (illegalFc_40 fc) fun h18 => ?_
  have := last_row_covers fc
  simp only [h1, h2, h3, h4, h5, h6, h7, h8, h9, h10, h11, h12, h13, h14, h15, h16, h17, h18, false_or] at this
  exact this

/-- Classifying a request by its function code keeps the identity. -/
theorem instrOfParts_ident (q : Ident) (fc : Byte) (data : List Byte) : (instrOfParts q fc data).ident = q := by
  simp only [instrOfParts, apply_ite Instr.ident]
  simp only [Instr.ident, ite_self]

/-- Classifying a request by its function code keeps the Data. -/
theorem instrOfParts_data (q : Ident) (fc : Byte) (data : List Byte) : (instrOfParts q fc data).data = data := by
  simp only [instrOfParts, apply_ite Instr.data]
  simp only [Instr.data, ite_self]

/-- The instruction of a Request stands for that Request. -/
theorem toRequest_instrOf (r : Request) : (instrOf r).toRequest = r := by
  simp only [instrOf, Instr.toRequest, Instr.origin, instrOfParts_fc, instrOfParts_ident, instrOfParts_data]
  rfl

end Sys2Proof
end

