-- ==== Sys2Proof/Laws/Step.lean ====
section
/-! SUPPORT. What one step of each agent can do, said once each, for proofs about whole-machine rules. -/

namespace Sys2Proof.Machine

/-! ## `step` -/

/-- With nothing to come, every agent waits. -/
theorem step_of_agenda_nil {s : State} (h : s.agenda = []) : step s = .next s := by
  unfold step
  rw [h]

/-- The next action is performed. -/
theorem step_of_agenda_cons {s : State} {a : Action} {rest : List Action} (h : s.agenda = a :: rest) :
    step s = perform a { s with agenda := rest } := by
  unfold step
  rw [h]

/-- A step waits, or performs the first action of the agenda. -/
theorem step_cases {s t : State} (h : step s = .next t) :
    (s.agenda = [] ∧ t = s) ∨
      ∃ a rest, s.agenda = a :: rest ∧ perform a { s with agenda := rest } = .next t := by
  cases ha : s.agenda with
  | nil =>
    rw [step_of_agenda_nil ha] at h
    cases h
    exact .inl ⟨rfl, rfl⟩
  | cons a rest =>
    rw [step_of_agenda_cons ha] at h
    exact .inr ⟨a, rest, rfl, h⟩

/-! ## Runs -/

@[simp] theorem run_zero (s : State) : run 0 s = .next s := rfl

/-- A run of `n + 1` steps is one step and a run of `n`. -/
theorem run_succ_of_step {s t : State} (h : step s = .next t) (n : Nat) : run (n + 1) s = run n t := by
  have hc : core.step s = .next t := h
  simp only [run, Host.Core.run, hc]
  rfl

theorem run_succ_cases {n : Nat} {s u : State} (h : run (n + 1) s = .next u) :
    ∃ t, step s = .next t ∧ run n t = .next u := by
  cases hs : step s with
  | next t => exact ⟨t, rfl, run_succ_of_step hs n ▸ h⟩
  | fault f => exact nomatch f
  | refused r =>
    have hc : core.step s = .refused r := hs
    simp only [run, Host.Core.run, hc] at h
    cases h

/-! ## The agenda takes no part in what is read of a transport -/

@[simp] theorem link?_withAgenda (s : State) (l : List Action) (t : Transport) :
    ({ s with agenda := l } : State).link? t = s.link? t := by
  cases t <;> rfl

@[simp] theorem isOpen_withAgenda (s : State) (l : List Action) (t : Transport) :
    ({ s with agenda := l } : State).isOpen t = s.isOpen t := by
  cases t <;> rfl

@[simp] theorem pendOf_withAgenda (s : State) (l : List Action) (t : Transport) :
    ({ s with agenda := l } : State).pendOf t = s.pendOf t := by
  cases t <;> rfl

@[simp] theorem inReadOf_withAgenda (s : State) (l : List Action) (t : Transport) :
    ({ s with agenda := l } : State).inReadOf t = s.inReadOf t := by
  cases t <;> rfl

@[simp] theorem txOf_withAgenda (s : State) (l : List Action) (t : Transport) :
    ({ s with agenda := l } : State).txOf t = s.txOf t := by
  cases t <;> rfl

/-! ## Steps that are not enabled -/

theorem enqueueStep_waits {t : Transport} {s : State} (h : canEnqueue s t = false) : enqueueStep t s = s := by
  simp [enqueueStep, h]

theorem dispatchStep_waits {w : WriteAnswer} {s : State} (h : canDispatch s = false) : dispatchStep w s = .next s := by
  simp [dispatchStep, h]

theorem openSerialStep_waits {s : State} (h : canOpenSerial s = false) : openSerialStep s = s := by
  simp [openSerialStep, h]

/-! ## The Dispatcher -/

/-- A Dispatcher step that is not enabled, or has nothing to dispatch, waits; otherwise it removes the head of `RQ`, runs its
handler and hands the Response to the Request's transport. -/
theorem dispatchStep_cases (w : WriteAnswer) (s : State) :
    dispatchStep w s = .next s ∨
      ∃ r rest adu, s.alive = true ∧ s.shutdown = false ∧ s.rq = r :: rest ∧
        dispatchStep w s = .next
          (transmit (instrOf r).origin adu (handle (instrOf r) { s with rq := rest, writeAnswer := w }).2) := by
  unfold dispatchStep canDispatch
  split
  · rename_i he
    simp only [Bool.and_eq_true, Bool.not_eq_true'] at he
    cases hq : s.rq with
    | nil => exact .inl rfl
    | cons r rest =>
      obtain ⟨adu, -, hx, -⟩ := exec_responds (instrOf r) { s with rq := rest, writeAnswer := w }
      exact .inr ⟨r, rest, adu, he.1.1, he.1.2, rfl, hx⟩
  · exact .inl rfl

/-- The origin of the instruction a Request is. -/
@[simp] theorem instrOf_origin (r : Request) : (instrOf r).origin = r.origin := by
  simp only [instrOf, instrOfParts, apply_ite Instr.origin]
  simp only [Instr.origin, Instr.ident, Request.ident, ite_self]

/-! ## The transport tasks -/

/-- The loop of R164 gives a Frame of some suffix that decodes, the buffer then empty, or no Frame, at most 4 bytes left. -/
theorem reassemble_cases (b : List Byte) :
    (∃ k f, decodeRtu (b.drop k) = .ok f ∧ reassemble b = (some f, [])) ∨
      ∃ rest, reassemble b = (none, rest) ∧ rest.length ≤ 4 := by
  induction b with
  | nil => exact .inr ⟨[], rfl, Nat.zero_le _⟩
  | cons x xs ih =>
    unfold reassemble
    split
    · rename_i h
      exact .inr ⟨_, rfl, Nat.le_of_lt_succ h⟩
    · split
      · rename_i f hf
        exact .inl ⟨0, f, hf, rfl⟩
      · rcases ih with ⟨k, f, hf, hr⟩ | h
        · exact .inl ⟨k + 1, f, hf, hr⟩
        · exact .inr h

/-- A read step changes nothing, or replaces one port by what its reader makes of it, or one connection by what its task
makes of it. -/
theorem readStep_cases (t : Transport) (a : ReadAnswer) (s : State) :
    readStep t a s = s ∨
      (∃ p q, t = .serial p ∧ s.ports[p]? = some q ∧ canRead s q.link = true ∧
        readStep t a s = { s with ports := s.ports.set p (serialRead p a q) }) ∨
      ∃ c l, t = .tcp c ∧ s.conns[c]? = some l ∧ canRead s l = true ∧
        readStep t a s = { s with conns := s.conns.set c (tcpRead c a l) } := by
  cases t with
  | serial p =>
    simp only [readStep]
    cases hq : s.ports[p]? with
    | none => exact .inl rfl
    | some q =>
      by_cases he : canRead s q.link = true ∧ a.possible s.readMax = true
      · exact .inr (.inl ⟨p, q, rfl, hq, he.1, by simp [he.1, he.2]⟩)
      · exact .inl (by simpa using fun h h' => absurd ⟨h, h'⟩ he)
  | tcp c =>
    simp only [readStep]
    cases hl : s.conns[c]? with
    | none => exact .inl rfl
    | some l =>
      by_cases he : canRead s l = true ∧ a.possible s.readMax = true
      · exact .inr (.inr ⟨c, l, rfl, hl, he.1, by simp [he.1, he.2]⟩)
      · exact .inl (by simpa using fun h h' => absurd ⟨h, h'⟩ he)

/-- A serial read puts no ADU on the stream and leaves the port open or closed as it was. -/
theorem serialRead_link (p : Nat) (a : ReadAnswer) (q : Port) :
    (serialRead p a q).link.isOpen = q.link.isOpen ∧ (serialRead p a q).link.tx = q.link.tx ∧
      (serialRead p a q).link.inRead = false := by
  cases a with
  | error => exact ⟨rfl, rfl, rfl⟩
  | bytes rd =>
    cases rd with
    | nil => exact ⟨rfl, rfl, rfl⟩
    | cons x xs =>
      rcases reassemble_cases (q.rxbuf ++ x :: xs) with ⟨k, f, -, hr⟩ | ⟨rest, hr, -⟩ <;> simp [serialRead, hr]

/-- What a serial read leaves in `PEND[t]` and in the buffer: as before, or a Request and an empty buffer, or at most 4 bytes. -/
theorem serialRead_cases (p : Nat) (a : ReadAnswer) (q : Port) :
    ((serialRead p a q).link.pend = q.link.pend ∧
        ((serialRead p a q).rxbuf = q.rxbuf ∨ (serialRead p a q).rxbuf.length ≤ 4)) ∨
      ∃ b f, decodeRtu b = .ok f ∧ (serialRead p a q).rxbuf = [] ∧
        (serialRead p a q).link.pend = some { frame := f, origin := .serial p } := by
  cases a with
  | error => exact .inl ⟨rfl, .inl rfl⟩
  | bytes rd =>
    cases rd with
    | nil => exact .inl ⟨rfl, .inl rfl⟩
    | cons x xs =>
      rcases reassemble_cases (q.rxbuf ++ x :: xs) with ⟨k, f, hf, hr⟩ | ⟨rest, hr, hl⟩
      · exact .inr ⟨_, f, hf, by simp [serialRead, hr], by simp [serialRead, hr]⟩
      · exact .inl ⟨by simp [serialRead, hr], .inr (by simpa [serialRead, hr] using hl)⟩

/-- A TCP read leaves `PEND[t]` as it was, or puts there the Request its bytes decode to; it never opens a connection. -/
theorem tcpRead_cases (c : Nat) (a : ReadAnswer) (l : Link) :
    (tcpRead c a l).tx = l.tx ∧ (tcpRead c a l).inRead = false ∧
      ((tcpRead c a l).isOpen = true → l.isOpen = true) ∧
      ((tcpRead c a l).pend = l.pend ∨
        ∃ b f, decodeTcp b = .ok f ∧ (tcpRead c a l).pend = some { frame := f, origin := .tcp c }) := by
  cases a with
  | error => exact ⟨rfl, rfl, nofun, .inl rfl⟩
  | bytes rd =>
    cases rd with
    | nil => exact ⟨rfl, rfl, id, .inl rfl⟩
    | cons x xs =>
      cases hd : decodeTcp (x :: xs) with
      | ok f => simp only [tcpRead, hd]; exact ⟨rfl, rfl, id, .inr ⟨_, f, hd, rfl⟩⟩
      | error e => simp only [tcpRead, hd]; exact ⟨rfl, rfl, nofun, .inl rfl⟩

/-- An enqueue step changes nothing, or moves the pending Request to the tail of a queue that has room. -/
theorem enqueueStep_cases (t : Transport) (s : State) :
    enqueueStep t s = s ∨
      ∃ r, s.alive = true ∧ s.isOpen t = true ∧ s.rq.length < s.queueDepth ∧ s.pendOf t = some r ∧
        enqueueStep t s = enqueueRequest r (s.modLink t fun l => { l with pend := none }) := by
  unfold enqueueStep canEnqueue
  split
  · rename_i he
    simp only [Bool.and_eq_true, decide_eq_true_eq] at he
    cases hp : s.pendOf t with
    | none => exact .inl rfl
    | some r => exact .inr ⟨r, he.1.1.1, he.1.1.2, he.2, rfl, rfl⟩
  · exact .inl rfl

/-- The end of a run, transport by transport. -/
theorem runEnded_iff (s : State) : runEnded s = true ↔ s.shutdown = true ∧ ∀ t, s.inReadOf t = false := by
  simp only [runEnded, Bool.and_eq_true, List.all_eq_true, Bool.not_eq_true', and_assoc, and_congr_right_iff]
  intro _
  constructor
  · rintro ⟨hp, hc⟩ (p | c)
    · simp only [State.inReadOf, State.link?]
      cases h : s.ports[p]? with
      | none => rfl
      | some q => simpa using hp q (List.mem_of_getElem? h)
    · simp only [State.inReadOf, State.link?]
      cases h : s.conns[c]? with
      | none => rfl
      | some l => simpa using hc l (List.mem_of_getElem? h)
  · refine fun h => ⟨fun q hq => ?_, fun l hl => ?_⟩
    · obtain ⟨p, hp⟩ := List.mem_iff_getElem?.mp hq
      simpa [State.inReadOf, State.link?, hp] using h (.serial p)
    · obtain ⟨c, hc⟩ := List.mem_iff_getElem?.mp hl
      simpa [State.inReadOf, State.link?, hc] using h (.tcp c)

/-! ## What a step does to one transport -/

@[simp] theorem enqueueRequest_link? (r : Request) (s : State) (t : Transport) :
    (enqueueRequest r s).link? t = s.link? t := by
  cases t <;> rfl

@[simp] theorem bankWriteBit_link? (s : State) (b : BitBank) (a : Nat) (v : Bool) (t : Transport) :
    (bankWriteBit s b a v).link? t = s.link? t := by
  cases t <;> simp [State.link?]

@[simp] theorem bankWriteWord_link? (s : State) (b : WordBank) (a : Nat) (v : Word) (t : Transport) :
    (bankWriteWord s b a v).link? t = s.link? t := by
  cases t <;> simp [State.link?]

/-- What one step can do to the link `l` of one transport, in the step from `s` to `s'`. -/
inductive LinkStep (s s' : State) (l : Link) : Link → Prop where
  /-- Nothing. -/
  | same : LinkStep s s' l l
  /-- A Response is sent on it. -/
  | sent (adu : List Byte) (h : s.shutdown = false) : LinkStep s s' l { l with tx := l.tx ++ [adu] }
  /-- Its task reads. -/
  | read {l' : Link} (enabled : canRead s l = true) (tx : l'.tx = l.tx) (inRead : l'.inRead = false)
      (isOpen : l'.isOpen = true → l.isOpen = true) : LinkStep s s' l l'
  /-- Its task moves the pending Request to the queue. -/
  | enqueued {r : Request} (pend : l.pend = some r) (rq : s'.rq = s.rq ++ [r]) :
      LinkStep s s' l { l with pend := none }
  /-- The host raises shutdown. -/
  | stopped (before : s.shutdown = false) (after : s'.shutdown = true) : LinkStep s s' l l.atShutdown
  /-- The Server is destroyed. -/
  | released (h : s.shutdown = true) : LinkStep s s' l l.released

theorem readStep_link? (t : Transport) (a : ReadAnswer) (s s' : State) {u : Transport} {l : Link}
    (hl : s.link? u = some l) : ∃ l', (readStep t a s).link? u = some l' ∧ LinkStep s s' l l' := by
  rcases readStep_cases t a s with h | ⟨p, q, rfl, hq, he, h⟩ | ⟨c, k, rfl, hk, he, h⟩
  · exact ⟨l, by rw [h]; exact hl, .same⟩
  · rw [h]
    cases u with
    | tcp c => exact ⟨l, hl, .same⟩
    | serial p' =>
      by_cases hp : p = p'
      · subst hp
        simp only [State.link?, hq, Option.map_some, Option.some.injEq] at hl
        subst hl
        have hlt : p < s.ports.length := (List.getElem?_eq_some_iff.mp hq).1
        have hs := serialRead_link p a q
        exact ⟨(serialRead p a q).link, by simp [State.link?, hlt], .read he hs.2.1 hs.2.2 fun h => hs.1 ▸ h⟩
      · exact ⟨l, by simpa [State.link?, List.getElem?_set, hp] using hl, .same⟩
  · rw [h]
    cases u with
    | serial p => exact ⟨l, hl, .same⟩
    | tcp c' =>
      by_cases hc : c = c'
      · subst hc
        simp only [State.link?, hk, Option.some.injEq] at hl
        subst hl
        have hlt : c < s.conns.length := (List.getElem?_eq_some_iff.mp hk).1
        have ht := tcpRead_cases c a k
        exact ⟨tcpRead c a k, by simp [State.link?, hlt], .read he ht.1 ht.2.1 ht.2.2.1⟩
      · exact ⟨l, by simpa [State.link?, List.getElem?_set, hc] using hl, .same⟩

/-- A transport that exists still does after any action, and this is what has become of it. -/
theorem perform_link? {a : Action} {s s' : State} (h : perform a s = .next s') {u : Transport} {l : Link}
    (hl : s.link? u = some l) : ∃ l', s'.link? u = some l' ∧ LinkStep s s' l l' := by
  cases a with
  | read t ans =>
    cases h
    exact readStep_link? t ans s _ hl
  | enqueue t =>
    cases h
    rcases enqueueStep_cases t s with h | ⟨r, -, -, -, hp, h⟩
    · exact ⟨l, h.symm ▸ hl, .same⟩
    · rw [h, enqueueRequest_link?, link?_modLink]
      split
      · rename_i hut
        subst hut
        have hr : l.pend = some r := by simpa [State.pendOf, hl] using hp
        exact ⟨_, by rw [hl]; rfl, .enqueued hr (by simp)⟩
      · exact ⟨l, hl, .same⟩
  | dispatch w =>
    simp only [perform] at h
    rcases dispatchStep_cases w s with h' | ⟨r, rest, adu, -, hs, -, h'⟩
    · rw [h'] at h
      cases h
      exact ⟨l, hl, .same⟩
    · rw [h'] at h
      cases h
      obtain ⟨co, di, hr, ir, e⟩ := handle_banksOnly (instrOf r) { s with rq := rest, writeAnswer := w }
      have hl' : (handle (instrOf r) { s with rq := rest, writeAnswer := w }).2.link? u = some l := by
        rw [e, ← hl]
        cases u <;> rfl
      unfold transmit
      split
      · rw [link?_modLink]
        split
        · exact ⟨_, by rw [hl']; rfl, .sent adu hs⟩
        · exact ⟨l, hl', .same⟩
      · exact ⟨l, hl', .same⟩
  | openSerial =>
    cases h
    refine ⟨l, ?_, .same⟩
    unfold openSerialStep
    split
    · cases u with
      | tcp c => exact hl
      | serial p =>
        simp only [State.link?, Option.map_eq_some_iff] at hl ⊢
        obtain ⟨q, hq, rfl⟩ := hl
        exact ⟨q, by rw [List.getElem?_append_left (List.getElem?_eq_some_iff.mp hq).1]; exact hq, rfl⟩
    · exact hl
  | accept =>
    cases h
    refine ⟨l, ?_, .same⟩
    unfold acceptStep
    split
    · cases u with
      | serial p => exact hl
      | tcp c =>
        simp only [State.link?] at hl ⊢
        rw [List.getElem?_append_left (List.getElem?_eq_some_iff.mp hl).1]
        exact hl
    · exact hl
  | peekBit b a =>
    cases h
    refine ⟨l, ?_, .same⟩
    unfold hostPeek
    split
    · cases u <;> exact hl
    · exact hl
  | peekWord b a =>
    cases h
    refine ⟨l, ?_, .same⟩
    unfold hostPeek
    split
    · cases u <;> exact hl
    · exact hl
  | pokeBit b a v =>
    cases h
    refine ⟨l, ?_, .same⟩
    unfold hostPokeBit
    split <;> simp [hl]
  | pokeWord b a v =>
    cases h
    refine ⟨l, ?_, .same⟩
    unfold hostPokeWord
    split <;> simp [hl]
  | raiseShutdown =>
    cases h
    unfold raiseShutdownStep
    split
    · rename_i he
      simp only [Bool.and_eq_true, Bool.not_eq_true'] at he
      refine ⟨l.atShutdown, ?_, .stopped he.2 rfl⟩
      cases u with
      | serial p =>
        simp only [State.link?, Option.map_eq_some_iff] at hl
        obtain ⟨q, hq, rfl⟩ := hl
        simp [State.link?, hq]
      | tcp c =>
        simp only [State.link?] at hl
        simp [State.link?, hl]
    · exact ⟨l, hl, .same⟩
  | destroy =>
    cases h
    unfold destroyStep
    split
    · rename_i he
      simp only [Bool.and_eq_true] at he
      refine ⟨l.released, ?_, .released he.2⟩
      cases u with
      | serial p =>
        simp only [State.link?, Option.map_eq_some_iff] at hl
        obtain ⟨q, hq, rfl⟩ := hl
        simp [State.link?, hq]
      | tcp c =>
        simp only [State.link?] at hl
        simp [State.link?, hl]
    · exact ⟨l, hl, .same⟩

/-- An action brings a transport into being only before shutdown, and then as a fresh one. -/
theorem perform_link?_none {a : Action} {s s' : State} (h : perform a s = .next s') {u : Transport}
    (hl : s.link? u = none) : s'.link? u = none ∨ (s.shutdown = false ∧ s'.link? u = some Link.fresh) := by
  cases a with
  | read t ans =>
    cases h
    rcases readStep_cases t ans s with h | ⟨p, q, -, -, -, h⟩ | ⟨c, k, -, -, -, h⟩
    · exact .inl (h.symm ▸ hl)
    · rw [h]
      refine .inl ?_
      cases u with
      | tcp c => exact hl
      | serial p' => simpa [State.link?] using hl
    · rw [h]
      refine .inl ?_
      cases u with
      | serial p => exact hl
      | tcp c' => simpa [State.link?] using hl
  | enqueue t =>
    cases h
    rcases enqueueStep_cases t s with h | ⟨r, -, -, -, -, h⟩
    · exact .inl (h.symm ▸ hl)
    · rw [h, enqueueRequest_link?, link?_modLink, hl]
      exact .inl (by simp)
  | dispatch w =>
    simp only [perform] at h
    rcases dispatchStep_cases w s with h' | ⟨r, rest, adu, -, hs, -, h'⟩
    · rw [h'] at h
      cases h
      exact .inl hl
    · rw [h'] at h
      cases h
      obtain ⟨co, di, hr, ir, e⟩ := handle_banksOnly (instrOf r) { s with rq := rest, writeAnswer := w }
      have hl' : (handle (instrOf r) { s with rq := rest, writeAnswer := w }).2.link? u = none := by
        rw [e, ← hl]
        cases u <;> rfl
      refine .inl ?_
      unfold transmit
      split
      · rw [link?_modLink, hl']
        simp
      · exact hl'
  | openSerial =>
    cases h
    unfold openSerialStep
    split
    · rename_i he
      simp only [canOpenSerial, Bool.and_eq_true, Bool.not_eq_true'] at he
      cases u with
      | tcp c => exact .inl hl
      | serial p =>
        simp only [State.link?, Option.map_eq_none_iff] at hl ⊢
        rw [List.getElem?_append_right (List.getElem?_eq_none_iff.mp hl)]
        rcases p - s.ports.length with _ | k
        · exact .inr ⟨he.1.2, rfl⟩
        · exact .inl rfl
    · exact .inl hl
  | accept =>
    cases h
    unfold acceptStep
    split
    · rename_i he
      simp only [Bool.and_eq_true, Bool.not_eq_true'] at he
      cases u with
      | serial p => exact .inl hl
      | tcp c =>
        simp only [State.link?] at hl ⊢
        rw [List.getElem?_append_right (List.getElem?_eq_none_iff.mp hl)]
        rcases c - s.conns.length with _ | k
        · exact .inr ⟨he.2, rfl⟩
        · exact .inl rfl
    · exact .inl hl
  | peekBit b a =>
    cases h
    refine .inl ?_
    unfold hostPeek
    split
    · cases u <;> exact hl
    · exact hl
  | peekWord b a =>
    cases h
    refine .inl ?_
    unfold hostPeek
    split
    · cases u <;> exact hl
    · exact hl
  | pokeBit b a v =>
    cases h
    refine .inl ?_
    unfold hostPokeBit
    split <;> simp [hl]
  | pokeWord b a v =>
    cases h
    refine .inl ?_
    unfold hostPokeWord
    split <;> simp [hl]
  | raiseShutdown =>
    cases h
    refine .inl ?_
    unfold raiseShutdownStep
    split
    · cases u <;> simpa [State.link?] using hl
    · exact hl
  | destroy =>
    cases h
    refine .inl ?_
    unfold destroyStep
    split
    · cases u <;> simpa [State.link?] using hl
    · exact hl

/-- The same of a step of the machine. -/
theorem step_link? {s s' : State} (h : step s = .next s') {u : Transport} {l : Link} (hl : s.link? u = some l) :
    ∃ l', s'.link? u = some l' ∧ LinkStep s s' l l' := by
  rcases step_cases h with ⟨-, rfl⟩ | ⟨a, rest, -, hp⟩
  · exact ⟨l, hl, .same⟩
  · obtain ⟨l', hl', hs⟩ := perform_link? hp (u := u) (l := l) (by cases u <;> exact hl)
    refine ⟨l', hl', ?_⟩
    cases hs with
    | same => exact .same
    | sent adu h => exact .sent adu h
    | read e t i o => exact .read e t i o
    | enqueued p q => exact .enqueued p q
    | stopped b a => exact .stopped b a
    | released h => exact .released h

theorem step_link?_none {s s' : State} (h : step s = .next s') {u : Transport} (hl : s.link? u = none) :
    s'.link? u = none ∨ (s.shutdown = false ∧ s'.link? u = some Link.fresh) := by
  rcases step_cases h with ⟨-, rfl⟩ | ⟨a, rest, -, hp⟩
  · exact .inl hl
  · exact perform_link?_none hp (by cases u <;> exact hl)

end Sys2Proof.Machine
end

