-- ==== Sys2Proof/Tests/Slice0.lean ====
section
/-! SUPPORT. Tests. Expected values are the spec's: the vectors of spec/95_test_vectors.md are named by their ids; the others
are words written out from the encoding tables. -/

set_option Elab.async false

namespace Sys2Proof.Tests

open Machine

/-! ## Well-formedness: one ill-formed term for each check -/

/-- A TCP identity. -/
def tcpId (txn proto : Word) (unit : Byte) : Ident := { head := .tcp txn proto, unit := unit, origin := .tcp 0 }

/-- An RTU identity with a received checksum. -/
def rtuId (unit : Byte) (crc : Word) : Ident := { head := .rtu (some crc), unit := unit, origin := .serial 0 }

theorem test_wellFormed_tcp : (Instr.rdhr (tcpId 1 0 1) [0, 0, 0, 1]).wellFormed = true := by decide +kernel
theorem test_wellFormed_rtu : (Instr.rdhr (rtuId 1 0x0A84) [0, 0, 0, 1]).wellFormed = true := by decide +kernel
/-- A TCP Frame cannot come from a serial port (R90). -/
theorem test_refuse_kind : (Instr.rdhr { tcpId 1 0 1 with origin := .serial 0 } [0, 0, 0, 1]).wellFormed = false := by
  decide +kernel
/-- An RTU Frame cannot come from a TCP connection (R90). -/
theorem test_refuse_kind_rtu :
    (Instr.rdhr { rtuId 1 0x0A84 with origin := .tcp 0 } [0, 0, 0, 1]).wellFormed = false := by decide +kernel
/-- 65534 Data bytes do not fit the Length field (R93). -/
theorem test_refuse_long : (Instr.illegal00 (tcpId 1 0 1) (List.replicate 65534 0)).wellFormed = false := by
  show decide ((List.replicate 65534 (0 : Byte)).length ≤ 65533) = false
  rw [List.length_replicate]
  decide
/-- An RTU Frame without Data has only 4 bytes (R150); the checksum given is right. -/
theorem test_refuse_empty : (Instr.rdhr (rtuId 1 0x2140) []).wellFormed = false := by decide +kernel
/-- A wrong checksum (R144). -/
theorem test_refuse_crc : (Instr.rdhr (rtuId 1 0x840A) [0, 0, 0, 1]).wellFormed = false := by decide +kernel
/-- An accepted Request carries its checksum (R144). -/
theorem test_refuse_no_crc : (Instr.rdhr { rtuId 1 0 with head := .rtu none } [0, 0, 0, 1]).wellFormed = false := by
  decide +kernel

/-! ## CRC16 -/

/-- The printed table is what the loop of R130 makes. -/
theorem test_crc_table_loop : crcTable = (List.range 256).map (fun i => crcShift8 (BitVec.ofNat 16 i)) := by
  decide +kernel
theorem test_crc_VK1_VK2 : crc16 [] = 0xFFFF ∧ crc16 [0] = 0x40BF := by decide +kernel
theorem test_crc_VK5 : crc16 [0x31, 0x32, 0x33, 0x34, 0x35, 0x36, 0x37, 0x38, 0x39] = 0x4B37 := by decide +kernel
theorem test_crc_VK6_VK7 :
    crc16 [1, 3, 0, 0, 0, 1] = 0x0A84 ∧ crc16 [1, 3, 0, 0, 0, 1, 0x84, 0x0A] = 0 := by decide +kernel
theorem test_crc_bitwise_VK9 : crc16Bitwise [1, 4, 2, 0xFF, 0xFF] = 0x80B8 := by decide +kernel

/-! ## Codec -/

theorem test_decodeRtu_VF1 : decodeRtu [1, 3, 0, 0, 0, 1, 0x84, 0x0A] =
    .ok { head := .rtu (some 0x0A84), unit := 1, fc := 3, data := [0, 0, 0, 1] } := by decide +kernel
theorem test_decodeRtu_VF2 : decodeRtu [0x11, 0x83, 2, 0xC1, 0x34] =
    .ok { head := .rtu (some 0x34C1), unit := 0x11, fc := 0x83, data := [2] } := by decide +kernel
theorem test_decodeTcp_VF3 : decodeTcp [0x12, 0x34, 0, 0, 0, 6, 1, 3, 0, 0, 0, 1] =
    .ok { head := .tcp 0x1234 0, unit := 1, fc := 3, data := [0, 0, 0, 1] } := by decide +kernel
theorem test_decodeTcp_VF4 : decodeTcp [0xAB, 0xCD, 0, 1, 0, 2, 0xFF, 0x2B] =
    .ok { head := .tcp 0xABCD 1, unit := 0xFF, fc := 0x2B, data := [] } := by decide +kernel
theorem test_decodeRtu_VF5_VF6 : decodeRtu [1, 3, 0, 0, 0, 1, 0x0A, 0x84] = .error .checksumMismatch ∧
    decodeRtu [1, 3, 0x40, 0x21] = .error .malformedFrame := by decide +kernel
theorem test_decodeTcp_VF9_VF12 : decodeTcp [0x12, 0x34, 0, 0, 0, 6, 1] = .error .malformedFrame ∧
    decodeTcp [0, 0, 0, 0, 0, 1, 1, 3] = .error .malformedFrame := by decide +kernel
theorem test_decodeTcp_VF10_VF11 :
    decodeTcp [0x12, 0x34, 0, 0, 0, 6, 1, 3, 0, 0, 0, 1, 0] = .error .malformedFrame ∧
    decodeTcp [0x12, 0x34, 0, 0, 0, 6, 1, 3, 0, 0, 0] = .error .malformedFrame := by decide +kernel
theorem test_encode_VF13 : encodeFrame { head := .tcp 7 0, unit := 9, fc := 0xFF, data := [1] } =
    some [0, 7, 0, 0, 0, 3, 9, 0xFF, 1] := by decide +kernel
theorem test_encode_VF14_VF15 :
    encodeFrame { head := .rtu none, unit := 1, fc := 0xFF, data := [1] } = some [1, 0xFF, 1, 0xA0, 0x30] ∧
    encodeFrame { head := .rtu none, unit := 1, fc := 3, data := [] } = some [1, 3, 0x40, 0x21] := by decide +kernel
theorem test_buildResponse_VF16 :
    buildResponse { head := .tcp 2 0, unit := 1, fc := 1, data := [0, 100, 0, 16] } [2, 255, 1] =
      { head := .tcp 2 0, unit := 1, fc := 1, data := [2, 255, 1] } := by decide +kernel
theorem test_buildException_VF17_VF18 :
    encodeFrame (buildException { head := .tcp 8 0, unit := 9, fc := 5, data := [0, 1, 0xFF, 0] } .illegalFunction) =
      some [0, 8, 0, 0, 0, 3, 9, 0x85, 1] ∧
    encodeFrame (buildException { head := .rtu none, unit := 1, fc := 0x83, data := [2] } .illegalFunction) =
      some [1, 0x83, 1, 0x80, 0xF0] := by decide +kernel
theorem test_payload4_VF19 : payload4 65530 6 = [255, 250, 0, 6] := by decide +kernel
theorem test_payloadV_VF20_S3 :
    payloadV 65535 2 [0xBEEF, 0xCAFE] = .ok [255, 255, 0, 2, 4, 0xBE, 0xEF, 0xCA, 0xFE] ∧
    payloadV 7 2 [3, 4] = .ok [0, 7, 0, 2, 4, 0, 3, 0, 4] := by decide +kernel
theorem test_payloadV_VF21 : payloadV 7 2 [3] = .error .payloadVPrecondition ∧
    payloadV 0 128 (List.replicate 128 0) = .error .payloadVPrecondition := by decide +kernel
theorem test_assemble_VH1_P2 :
    assemble (.rtu none) 1 (.wrmr 7 2 [3, 4]) =
      .ok [1, 0x10, 0, 7, 0, 2, 4, 0, 3, 0, 4, 0x43, 0x8A] ∧
    assemble (.tcp 1 0) 1 (.wrmc 100 9 [255, 1]) =
      .ok [0, 1, 0, 0, 0, 9, 1, 0x0F, 0, 0x64, 0, 9, 2, 0xFF, 1] := by decide +kernel
theorem test_payloadCoils_refused : payloadCoils 0 9 [255] = .error .payloadCoilsShape := by decide +kernel

/-! ## Decoding: one word for every constructor -/

/-- The TCP ADU of VH38: txn 0x20, unit 9, the function code, and Data `00 01 FF 00`. -/
def vh38 (fc : Byte) : List Byte := [0, 0x20, 0, 0, 0, 6, 9, fc, 0, 1, 0xFF, 0]

/-- The identity and the Data of VH38. -/
def vh38Id : Ident := tcpId 0x20 0 9
def vh38Data : List Byte := [0, 1, 0xFF, 0]

theorem test_decode_rdco_S6 : decode (.tcp 0) [0, 2, 0, 0, 0, 6, 1, 1, 0, 0x64, 0, 0x10] =
    .ok (.rdco (tcpId 2 0 1) [0, 100, 0, 16]) := by decide +kernel
theorem test_decode_rddi_VH7 : decode (.serial 0) [1, 2, 0xFF, 0xFF, 0, 4, 0x79, 0xED] =
    .ok (.rddi (rtuId 1 0xED79) [255, 255, 0, 4]) := by decide +kernel
theorem test_decode_rdhr_VF1 : decode (.serial 0) [1, 3, 0, 0, 0, 1, 0x84, 0x0A] =
    .ok (.rdhr (rtuId 1 0x0A84) [0, 0, 0, 1]) := by decide +kernel
theorem test_decode_rdir_S5 : decode (.serial 0) [1, 4, 0xFF, 0xFA, 0, 6, 0x60, 0x2D] =
    .ok (.rdir (rtuId 1 0x2D60) [255, 250, 0, 6]) := by decide +kernel
theorem test_decode_wrmc_S6 : decode (.tcp 0) [0, 1, 0, 0, 0, 9, 1, 0x0F, 0, 0x64, 0, 9, 2, 0xFF, 1] =
    .ok (.wrmc (tcpId 1 0 1) [0, 100, 0, 9, 2, 255, 1]) := by decide +kernel
theorem test_decode_wrmr_VH1 : decode (.serial 0) [1, 0x10, 0, 7, 0, 2, 4, 0, 3, 0, 4, 0x43, 0x8A] =
    .ok (.wrmr (rtuId 1 0x8A43) [0, 7, 0, 2, 4, 0, 3, 0, 4]) := by decide +kernel
theorem test_decode_illegal00 : decode (.tcp 0) (vh38 0x00) = .ok (.illegal00 vh38Id vh38Data) := by decide +kernel
theorem test_decode_illegal05 : decode (.tcp 0) (vh38 0x05) = .ok (.illegal05 vh38Id vh38Data) := by decide +kernel
theorem test_decode_illegal06 : decode (.tcp 0) (vh38 0x06) = .ok (.illegal06 vh38Id 0 vh38Data) ∧
    decode (.tcp 0) (vh38 0x07) = .ok (.illegal06 vh38Id 1 vh38Data) := by decide +kernel
theorem test_decode_illegal08 : decode (.tcp 0) (vh38 0x08) = .ok (.illegal08 vh38Id 0 vh38Data) ∧
    decode (.tcp 0) (vh38 0x0B) = .ok (.illegal08 vh38Id 3 vh38Data) := by decide +kernel
theorem test_decode_illegal0C : decode (.tcp 0) (vh38 0x0D) = .ok (.illegal0C vh38Id 1 vh38Data) := by decide +kernel
theorem test_decode_illegal0E : decode (.tcp 0) (vh38 0x0E) = .ok (.illegal0E vh38Id vh38Data) := by decide +kernel
theorem test_decode_illegal11 : decode (.tcp 0) (vh38 0x11) = .ok (.illegal11 vh38Id vh38Data) := by decide +kernel
theorem test_decode_illegal12 : decode (.tcp 0) (vh38 0x13) = .ok (.illegal12 vh38Id 1 vh38Data) := by decide +kernel
theorem test_decode_illegal14 : decode (.tcp 0) (vh38 0x16) = .ok (.illegal14 vh38Id 2 vh38Data) := by decide +kernel
theorem test_decode_illegal18 : decode (.tcp 0) (vh38 0x1D) = .ok (.illegal18 vh38Id 5 vh38Data) := by decide +kernel
theorem test_decode_illegal20 : decode (.tcp 0) (vh38 0x2B) = .ok (.illegal20 vh38Id 11 vh38Data) := by decide +kernel
theorem test_decode_illegal40 : decode (.tcp 0) (vh38 0x7E) = .ok (.illegal40 vh38Id 62 vh38Data) := by decide +kernel
theorem test_decode_illegal80_S4 : decode (.serial 0) [1, 0xFF, 0, 0x61, 0xF0] =
    .ok (.illegal80 (rtuId 1 0xF061) 0x7F [0]) := by decide +kernel

/-! ## One dispatch each -/

/-- A state with one open port and one open connection, and two register banks. -/
def start (di : Bank Bool) (hr ir : Bank Word) : State :=
  { State.reset with di := di, hr := hr, ir := ir, ports := [Port.fresh], conns := [Link.fresh] }

/-- The state after one ADU from transport `t` has been dispatched. -/
def served (t : Transport) (adu : List Byte) (s : State) : Option State :=
  match decodeFrame t adu with
  | .ok f => nextState? (dispatchStep .ok { s with rq := [{ frame := f, origin := t }] })
  | .error _ => none

/-- What it sent. -/
def answer (t : Transport) (adu : List Byte) (s : State) : Option (List (List Byte)) :=
  (served t adu s).map fun s' => s'.txOf t

theorem test_wrmr_VH1 : answer (.serial 0) [1, 0x10, 0, 7, 0, 2, 4, 0, 3, 0, 4, 0x43, 0x8A] (start [] [] []) =
    some [[1, 0x10, 0, 7, 0, 2, 0xF0, 9]] := by decide +kernel
theorem test_wrmr_wraps_VH5 :
    (served (.serial 0) [2, 0x10, 0xFF, 0xFF, 0, 2, 4, 0xBE, 0xEF, 0xCA, 0xFE, 0x34, 0xE6] (start [] [] [])).map
      State.hr = some [(0, 0xCAFE), (65535, 0xBEEF)] := by decide +kernel
theorem test_rdhr_VH2 : answer (.serial 0) [1, 3, 0, 7, 0, 2, 0x75, 0xCA] (start [] [(7, 3), (8, 4)] []) =
    some [[1, 3, 4, 0, 3, 0, 4, 0x0B, 0xF0]] := by decide +kernel
theorem test_rdhr_VH24 : answer (.tcp 0) [0, 0x0C, 0, 0, 0, 5, 1, 3, 0, 0, 0] (start [] [] []) =
    some [[0, 0x0C, 0, 0, 0, 3, 1, 0x83, 3]] := by decide +kernel
theorem test_rdir_wraps_VH4 : answer (.serial 0) [1, 4, 0xFF, 0xFA, 0, 8, 0xE1, 0xE9]
      (start [] [] [(0, 0x1234), (1, 0xABCD), (65530, 1), (65535, 65535)]) =
    some [[1, 4, 0x10, 0, 1, 0, 0, 0, 0, 0, 0, 0, 0, 0xFF, 0xFF, 0x12, 0x34, 0xAB, 0xCD, 0x6E, 0x24]] := by
  decide +kernel
theorem test_rddi_wraps_VH7 : answer (.serial 0) [1, 2, 0xFF, 0xFF, 0, 4, 0x79, 0xED]
      (start [(0, true), (2, true), (65535, true)] [] []) = some [[1, 2, 1, 0x0B, 0xE0, 0x4F]] := by decide +kernel
theorem test_wrmc_padding_VH9 : (served (.serial 0) [1, 0x0F, 0, 0, 0, 3, 1, 0xFF, 0xCF, 0x17] (start [] [] [])).map
      (fun s => (s.co, s.txOf (.serial 0))) =
    some ([(0, true), (1, true), (2, true)], [[1, 0x0F, 0, 0, 0, 3, 0x15, 0xCA]]) := by decide +kernel
theorem test_wrmc_clears_VH10 :
    (served (.serial 0) [1, 0x0F, 0, 0, 0, 3, 1, 0, 0x8F, 0x57]
      { start [] [] [] with co := [(0, true), (1, true), (2, true), (3, true)] }).map State.co = some [(3, true)] := by
  decide +kernel
theorem test_rdco_VH15 : answer (.tcp 0) [0, 4, 0, 0, 0, 6, 1, 1, 0, 0x68, 0, 7]
      { start [] [] [] with co := [(104, true), (105, true), (106, true), (107, true), (108, true)] } =
    some [[0, 4, 0, 0, 0, 4, 1, 1, 1, 0x1F]] := by decide +kernel
theorem test_rdco_count_VH22 : answer (.tcp 0) [0, 0x0B, 0, 0, 0, 6, 1, 1, 0, 0, 7, 0xD1] (start [] [] []) =
    some [[0, 0x0B, 0, 0, 0, 3, 1, 0x81, 3]] := by decide +kernel
theorem test_illegal_S4 : answer (.serial 0) [1, 0xFF, 0, 0x61, 0xF0] (start [] [] []) =
    some [[1, 0xFF, 1, 0xA0, 0x30]] := by decide +kernel
theorem test_illegal_VH38 : answer (.tcp 0) (vh38 0x05) (start [] [] []) =
    some [[0, 0x20, 0, 0, 0, 3, 9, 0x85, 1]] := by decide +kernel
theorem test_header_copied_VH41 : answer (.tcp 0) [0xAB, 0xCD, 0x12, 0x34, 0, 6, 0, 3, 0, 0, 0, 1]
      (start [] [(0, 0xABCD)] []) = some [[0xAB, 0xCD, 0x12, 0x34, 0, 5, 0, 3, 2, 0xAB, 0xCD]] := by decide +kernel

/-! ## The reassembler and the TCP task -/

theorem test_reassemble_VA6 : reassemble [0xAA, 0x55, 1, 3, 0, 0, 0, 1, 0x84, 0x0A] =
    (some { head := .rtu (some 0x0A84), unit := 1, fc := 3, data := [0, 0, 0, 1] }, []) := by decide +kernel
theorem test_reassemble_VA4 : reassemble [1, 3, 0, 0, 0] = (none, [3, 0, 0, 0]) ∧
    reassemble ([3, 0, 0, 0] ++ [1, 0x84, 0x0A]) = (none, [0, 1, 0x84, 0x0A]) := by decide +kernel
theorem test_reassemble_VA8 : reassemble ([1, 3, 0, 0, 0, 1, 0x84, 0x0A] ++
      [1, 0x10, 0, 7, 0, 2, 4, 0, 3, 0, 4, 0x43, 0x8A]) =
    (some { head := .rtu (some 0x8A43), unit := 1, fc := 0x10, data := [0, 7, 0, 2, 4, 0, 3, 0, 4] }, []) := by
  decide +kernel
theorem test_serial_error_VA14 : serialRead 0 .error { Port.fresh with rxbuf := [1, 3, 0] } =
    { Port.fresh with rxbuf := [1, 3, 0] } := by decide +kernel
theorem test_tcp_malformed_VA16 : tcpRead 0 (.bytes [0, 2, 0, 0, 0, 6, 1, 1, 0, 0x64, 0]) Link.fresh =
    { Link.fresh with isOpen := false } := by decide +kernel
theorem test_tcp_zero_VA18 : tcpRead 0 (.bytes []) Link.fresh = Link.fresh := by decide +kernel

/-! ## The host path and the fetch -/

theorem test_poke_VS3_VS4 : (bankWriteWord State.reset .hr 65536 0xCAFE).hr = [(0, 0xCAFE)] ∧
    (bankWriteBit State.reset .co 65537 true).co = [(1, true)] := by decide +kernel
theorem test_fetch_runs_rdco : (nextState? (step (State.reset.withFetchWord 8 0x01))).map (fun s => s.txOf (.tcp 0)) =
    some [[0, 0, 0, 0, 0, 3, 0, 0x81, 3]] := by decide +kernel
theorem test_fetch_runs_illegal : decodeTableWord 8 0x80 = some (.illegal80 (tcpId 0 0 0) 0 []) := by decide +kernel

/-! ## The agents, one step each -/

/-- A state of an instance with `READ_MAX = 256`, `QUEUE_DEPTH = 1` and `N_SERIAL = 2`, one open port, one open connection, and something in
every bank. -/
def ready : State :=
  { start [(65535, true)] [(7, 3), (8, 4)] [(65530, 1)] with
    co := [(100, true)]
    readMax := 256
    queueDepth := 1
    nSerial := 2 }

/-- The Request of VF1, from port 0. -/
def request : Request :=
  { frame := { head := .rtu (some 0x0A84), unit := 1, fc := 3, data := [0, 0, 0, 1] }, origin := .serial 0 }

/-- `ready` with the Request of VF1 pending on port 0. -/
def waiting : State := { ready with ports := [{ link := Link.fresh.pending request, rxbuf := [] }] }

/-- `BUF_CAP = READ_MAX + 4` (R7, R167). -/
theorem test_bufCap : bufCap ready = 260 := by decide +kernel
theorem test_enqueue : enqueueStep (.serial 0) waiting = { ready with rq := [request] } := by decide +kernel
theorem test_enqueue_waits : enqueueStep (.serial 0) { waiting with rq := [request] } =
    { waiting with rq := [request] } := by decide +kernel
theorem test_openSerial_accept : (openSerialStep ready).isOpen (.serial 1) = true ∧
    (acceptStep ready).isOpen (.tcp 1) = true ∧ (acceptStep ready).isOpen (.tcp 2) = false := by decide +kernel
/-- After shutdown the port that was idle may complete one read; the one with a pending Request may not (R170, R168). -/
theorem test_late_read : (readStep (.serial 0) (.bytes [1]) (raiseShutdownStep ready)).rxbufOf 0 = [1] ∧
    (readStep (.serial 0) (.bytes [2]) (readStep (.serial 0) (.bytes [1]) (raiseShutdownStep ready))).rxbufOf 0 = [1] ∧
    (readStep (.serial 0) (.bytes [1]) (raiseShutdownStep waiting)).rxbufOf 0 = [] := by decide +kernel
theorem test_destroy : (destroyStep ready).alive = true ∧
    (destroyStep (raiseShutdownStep ready)).isOpen (.serial 0) = false := by decide +kernel

/-! ## Witnesses: for each obligation with hypotheses, a state and operands that meet them, at the edges of each clause -/

theorem witness_Memory_wf : Memory.wf ready = true ∧ Memory.wf State.reset = true := by decide +kernel

theorem witness_ZeroPaddedRtuFrameIsAccepted :
    ∃ f, decodeRtu [1, 3, 0, 0, 0, 1, 0x84, 0x0A] = .ok f := ⟨_, test_decodeRtu_VF1⟩

theorem witness_DecodeAfterEncodeIsIdentity :
    (Instr.rdhr (tcpId 1 0 1) [0, 0, 0, 1]).wellFormed = true ∧
      (Instr.illegal80 (rtuId 1 0xF061) 0x7F [0]).wellFormed = true := by decide +kernel

theorem witness_EncodeAfterDecodeIsIdentity :
    (∃ i, decode (.tcp 0) [0, 2, 0, 0, 0, 6, 1, 1, 0, 0x64, 0, 0x10] = .ok i) ∧
      ∃ i, decode (.serial 0) [1, 0xFF, 0, 0x61, 0xF0] = .ok i :=
  ⟨⟨_, test_decode_rdco_S6⟩, _, test_decode_illegal80_S4⟩

theorem witness_FrameRoundTrip_TcpAduLayout :
    (List.replicate 65533 (0 : Byte)).length ≤ 65533 ∧ ([] : List Byte).length ≤ 65533 ∧
      1 ≤ ([0] : List Byte).length := by
  rw [List.length_replicate]
  decide

theorem witness_RegisterPayloadReadsBack :
    ((List.replicate 127 (0 : Word)).length = (127 : Word).toNat ∧ (127 : Word).toNat ≤ 127) ∧
      ¬ ((List.replicate 128 (0 : Word)).length = (128 : Word).toNat ∧ (128 : Word).toNat ≤ 127) := by
  decide +kernel

theorem witness_CoilPayloadReadsBack :
    (List.replicate 255 (0 : Byte)).length = ((2040 : Word).toNat + 7) / 8 ∧
      (List.replicate 255 (0 : Byte)).length ≤ 255 := by decide +kernel

theorem witness_HostAccessIsOneElement : ready.alive = true ∧ Memory.wf ready = true := by decide +kernel

theorem witness_BitReadResult : readOk 2000 [0, 0, 0, 1] ∧ readOk 2000 [0xFF, 0xFF, 7, 0xD0] ∧
    ¬ readOk 2000 [0, 0, 0, 0] ∧ ¬ readOk 2000 [0, 0, 7, 0xD1] ∧ ¬ readOk 2000 [0, 0, 0] := by decide +kernel

theorem witness_RegisterReadResult : readOk 125 [0, 0, 0, 1] ∧ readOk 125 [0xFF, 0xFF, 0, 125] ∧
    ¬ readOk 125 [0, 0, 0, 0] ∧ ¬ readOk 125 [0, 0, 0, 126] ∧ ¬ readOk 125 [0, 0, 0, 1, 0] := by decide +kernel

theorem witness_CoilWriteResult : Memory.wf ready = true ∧
    writeOk 1968 (fun n => (n + 7) / 8) [0, 0, 0, 1, 1, 1] ∧
    writeOk 1968 (fun n => (n + 7) / 8) ([0xFF, 0xFF, 7, 0xB0, 246] ++ List.replicate 246 0) ∧
    ¬ writeOk 1968 (fun n => (n + 7) / 8) [0, 0, 0, 0, 0] ∧
    ¬ writeOk 1968 (fun n => (n + 7) / 8) ([0, 0, 7, 0xB1, 247] ++ List.replicate 247 0) := by decide +kernel

theorem witness_RegisterWriteResult : Memory.wf ready = true ∧
    writeOk 123 (fun n => 2 * n) [0, 0, 0, 1, 2, 0, 1] ∧
    writeOk 123 (fun n => 2 * n) ([0xFF, 0xFF, 0, 123, 246] ++ List.replicate 246 0) ∧
    ¬ writeOk 123 (fun n => 2 * n) [0, 0, 0, 0, 0] ∧
    ¬ writeOk 123 (fun n => 2 * n) ([0, 0, 0, 124, 248] ++ List.replicate 248 0) := by decide +kernel

theorem witness_IllegalCodeTakesIllegalFunction :
    isIllegal (.illegal00 vh38Id []) = true ∧ isIllegal (.illegal05 vh38Id vh38Data) = true ∧
    isIllegal (.illegal06 vh38Id 1 []) = true ∧ isIllegal (.illegal08 vh38Id 3 []) = true ∧
    isIllegal (.illegal0C vh38Id 1 []) = true ∧ isIllegal (.illegal0E vh38Id []) = true ∧
    isIllegal (.illegal11 vh38Id []) = true ∧ isIllegal (.illegal12 vh38Id 1 []) = true ∧
    isIllegal (.illegal14 vh38Id 3 []) = true ∧ isIllegal (.illegal18 vh38Id 7 []) = true ∧
    isIllegal (.illegal20 vh38Id 31 []) = true ∧ isIllegal (.illegal40 vh38Id 63 []) = true ∧
    isIllegal (.illegal80 (rtuId 1 0xF061) 127 [0]) = true := by decide +kernel

theorem witness_IllegalDataAddressIsNeverSent : ∃ i t adu adu',
    exec i ready = .next t ∧ ready.isOpen i.origin = true ∧ ready.writeAnswer = .ok ∧ isIllegal i = false ∧
      encodeFrame (buildException (frameOf i) .illegalDataAddress) = some adu ∧
      encodeFrame (buildException (frameOf i) .illegalFunction) = some adu' :=
  have ⟨_, _, h, _⟩ := exec_responds (.rdhr (tcpId 1 0 1) [0, 7, 0, 2]) ready
  ⟨.rdhr (tcpId 1 0 1) [0, 7, 0, 2], _, _, _, h, by decide +kernel, rfl, rfl, rfl, rfl⟩

theorem witness_OnlyCheckedWritesChangeBanks : ∃ i t, exec i ready = .next t :=
  have ⟨_, _, h, _⟩ := exec_responds (.wrmr (tcpId 1 0 1) [0, 7, 0, 1, 2, 0, 9]) ready
  ⟨_, _, h⟩

theorem witness_LostResponseKeepsBankEffects : ready.isOpen (.tcp 1) = false := by decide +kernel

theorem witness_StepRunsDecodedInstruction : ready.alive = true ∧ ready.shutdown = false ∧
    (∃ i, decode (.serial 0) [1, 3, 0, 0, 0, 1, 0x84, 0x0A] = .ok i) ∧
    ∃ f, decodeFrame (.serial 0) [1, 3, 0, 0, 0, 1, 0x84, 0x0A] = .ok f :=
  ⟨rfl, rfl, ⟨_, test_decode_rdhr_VF1⟩, _, test_decodeRtu_VF1⟩

theorem witness_FetchWordRunsTableInstruction :
    decodeTableWord 8 0x80 = some (.illegal80 (tcpId 0 0 0) 0 []) ∧ (decodeTableWord 8 0x10).isSome = true := by
  decide +kernel

theorem witness_TcpRequestReachesItsHandler :
    ready.alive = true ∧ ready.shutdown = false ∧ ready.rq = [] ∧ 1 ≤ ready.queueDepth ∧
    [0, 2, 0, 0, 0, 6, 1, 1, 0, 0x64, 0, 0x10].length ≤ ready.readMax ∧ ready.conns[0]? = some Link.fresh ∧
    Link.fresh.isOpen = true ∧ Link.fresh.inRead = false ∧ Link.fresh.pend = none ∧
    ∃ i, decode (.tcp 0) [0, 2, 0, 0, 0, 6, 1, 1, 0, 0x64, 0, 0x10] = .ok i :=
  ⟨rfl, rfl, rfl, by decide, by decide, rfl, rfl, rfl, rfl, _, test_decode_rdco_S6⟩

/-- The hypotheses on the state. -/
theorem witness_SerialReadStepResult :
    ready.alive = true ∧ ready.shutdown = false ∧ ready.ports[0]? = some Port.fresh ∧
    Port.fresh.link.isOpen = true ∧ Port.fresh.link.inRead = false ∧ Port.fresh.link.pend = none ∧
    [0xAA, 0x55, 1, 3, 0, 0, 0, 1, 0x84, 0x0A].length ≤ ready.readMax ∧ [1, 3, 0, 0, 0].length ≤ ready.readMax := by
  decide +kernel

/-- The first clause, with two bytes of noise (VA6). -/
theorem witness_SerialReadStepResult_success :
    (∀ j, j < 2 → ∃ e, decodeRtu ((Port.fresh.rxbuf ++ [0xAA, 0x55, 1, 3, 0, 0, 0, 1, 0x84, 0x0A]).drop j) = .error e) ∧
      ∃ f, decodeRtu ((Port.fresh.rxbuf ++ [0xAA, 0x55, 1, 3, 0, 0, 0, 1, 0x84, 0x0A]).drop 2) = .ok f := by
  refine ⟨fun j hj => ⟨.checksumMismatch, ?_⟩, _, test_decodeRtu_VF1⟩
  have h : ∀ j, j < 2 → decodeRtu (([0xAA, 0x55, 1, 3, 0, 0, 0, 1, 0x84, 0x0A] : List Byte).drop j) =
      .error .checksumMismatch := by decide +kernel
  exact h j hj

/-- The second clause, with five bytes that do not decode (VA4). -/
theorem witness_SerialReadStepResult_failure :
    ∀ k, ∃ e, decodeRtu ((Port.fresh.rxbuf ++ [1, 3, 0, 0, 0]).drop k) = .error e := by
  intro k
  cases k with
  | zero => exact ⟨.checksumMismatch, by decide +kernel⟩
  | succ k =>
    refine ⟨.malformedFrame, ?_⟩
    have h : (([1, 3, 0, 0, 0] : List Byte).drop (k + 1)).length < Config.rtuMin := by
      rw [List.length_drop]
      show 5 - (k + 1) < 5
      omega
    exact if_pos h

theorem witness_SerialTimeoutAndErrorChangeNothing :
    ready.shutdown = false ∧ ∀ q ∈ ready.ports, q.link.inRead = false := by decide +kernel

theorem witness_TcpReadStepResult :
    ready.alive = true ∧ ready.shutdown = false ∧ ready.conns[0]? = some Link.fresh ∧ Link.fresh.isOpen = true ∧
    Link.fresh.inRead = false ∧ Link.fresh.pend = none ∧
    (∃ f, decodeTcp [0x12, 0x34, 0, 0, 0, 6, 1, 3, 0, 0, 0, 1] = .ok f) ∧
    decodeTcp [0, 2, 0, 0, 0, 6, 1, 1, 0, 0x64, 0] = .error .malformedFrame ∧
    [0x12, 0x34, 0, 0, 0, 6, 1, 3, 0, 0, 0, 1].length ≤ ready.readMax :=
  ⟨rfl, rfl, rfl, rfl, rfl, rfl, ⟨_, test_decodeTcp_VF3⟩, by decide +kernel, by decide⟩

theorem witness_EnqueueMovesPendingToTail :
    waiting.alive = true ∧ waiting.isOpen (.serial 0) = true ∧ waiting.pendOf (.serial 0) = some request ∧
    waiting.rq.length < waiting.queueDepth ∧
    ({ waiting with rq := [request] } : State).queueDepth ≤ [request].length := by decide +kernel

theorem witness_QueueIsFirstInFirstOut : ∃ t, step { waiting with agenda := [.enqueue (.serial 0)] } = .next t :=
  ⟨_, rfl⟩

theorem witness_DispatcherDrainsQueue :
    ready.alive = true ∧ ready.shutdown = false ∧ [WriteAnswer.ok].length ≤ [request].length ∧
    (∀ w ∈ [WriteAnswer.ok], w = .ok) ∧ ready.isOpen (.serial 0) = true := by decide +kernel

/-- `ready` after shutdown, with a read still in progress on each transport. -/
def stopping : State := { raiseShutdownStep ready with rq := [request] }

theorem witness_ShutdownAbandonsQueuedRequests : stopping.shutdown = true ∧
    ∃ t, run 1 { stopping with agenda := [.dispatch .ok] } = .next t := ⟨rfl, _, rfl⟩

theorem ready_inv : Inv ready := by
  refine ⟨by decide +kernel, fun p => ?_, by decide, by decide, fun t => ?_, fun t h => ?_, by decide, by decide, nofun⟩
  · cases p with
    | zero => exact Nat.zero_le _
    | succ p => exact Nat.zero_le _
  · rcases t with ⟨_ | p⟩ | ⟨_ | c⟩ <;> exact nofun
  · rcases t with ⟨_ | p⟩ | ⟨_ | c⟩ <;> exact nomatch h

theorem stopping_inv : Inv stopping := by
  refine ⟨by decide +kernel, fun p => ?_, by decide, by decide +kernel, fun t => ?_, fun t h => ⟨rfl, ?_⟩, by decide,
    by decide, nofun⟩
  · cases p with
    | zero => exact Nat.zero_le _
    | succ p => exact Nat.zero_le _
  · rcases t with ⟨_ | p⟩ | ⟨_ | c⟩ <;> exact nofun
  · rcases t with ⟨_ | p⟩ | ⟨_ | c⟩ <;> first | exact ⟨rfl, rfl⟩ | exact nomatch h

/-- A late read that gives a Request, and its enqueue step, before the second read. -/
theorem witness_OneLateReadAtMost : Inv stopping ∧ stopping.shutdown = true ∧
    (ReadAnswer.bytes [1, 3, 0, 0, 0, 1, 0x84, 0x0A]).possible stopping.readMax = true ∧
    ∃ u v, step { stopping with
        agenda := [.read (.serial 0) (.bytes [1, 3, 0, 0, 0, 1, 0x84, 0x0A]), .enqueue (.serial 0)] } = .next u ∧
      run 1 u = .next v :=
  ⟨stopping_inv, rfl, rfl, _, _, rfl, rfl⟩

/-- The same run on an empty queue: the Request is enqueued, and the second read is not taken. -/
theorem test_read_enqueue_read : nextState? (run 3 { stopping with
      rq := []
      agenda := [.read (.serial 0) (.bytes [1, 3, 0, 0, 0, 1, 0x84, 0x0A]), .enqueue (.serial 0),
        .read (.serial 0) (.bytes [7])] }) =
    some { stopping with rq := [request], ports := [Port.fresh] } := by decide +kernel

/-- `stopping` after the port's task has completed its late read. -/
def finished : State := readStep (.serial 0) (.bytes [1]) stopping

/-- The task of the open port has completed its late read, and is asked to read again. -/
theorem witness_FinishedReaderStaysFinished : stopping.inReadOf (.serial 0) = true ∧
    finished.isOpen (.serial 0) = true ∧ finished.shutdown = true ∧ finished.inReadOf (.serial 0) = false ∧
    ∃ u, step { finished with agenda := [.read (.serial 0) (.bytes [2])] } = .next u := ⟨rfl, rfl, rfl, rfl, _, rfl⟩

/-- Each clause, read first: closed, pending, shut down, too many bytes; then enqueue, dispatch, openSerial, accept. -/
theorem witness_DisabledStepChangesNothing :
    (destroyStep stopping).alive = false ∧ ready.isOpen (.tcp 1) = false ∧ waiting.pendOf (.serial 0) ≠ none ∧
    ((raiseShutdownStep waiting).shutdown = true ∧ (raiseShutdownStep waiting).inReadOf (.serial 0) = false) ∧
    ready.readMax < (List.replicate 257 (0 : Byte)).length ∧
    ready.pendOf (.serial 0) = none ∧ stopping.queueDepth ≤ stopping.rq.length ∧ ready.rq = [] ∧
    (openSerialStep ready).nSerial ≤ (openSerialStep ready).ports.length := by decide +kernel

theorem witness_PendingRequestIsNeverDropped : waiting.pendOf (.serial 0) = some request ∧
    ∃ u, step { waiting with agenda := [.read (.serial 0) (.bytes [1])] } = .next u := ⟨rfl, _, rfl⟩

theorem witness_HostControlSteps : ready.alive = true ∧ ready.shutdown = false ∧
    ready.ports.length < ready.nSerial ∧ stopping.alive = true ∧ stopping.shutdown = true := by decide +kernel

/-- The second and last port. -/
theorem test_openSerial_bound : (openSerialStep ready).ports.length = 2 ∧
    openSerialStep (openSerialStep ready) = openSerialStep ready := by decide +kernel

/-! ## Whole runs -/

theorem witness_StepFollowsFirstEntry :
    ∃ t, step { ready with agenda := [.read (.serial 0) (.bytes [1]), .raiseShutdown] } = .next t := ⟨_, rfl⟩

/-- One open connection, one Request of it in `RQ`. -/
def queued : State :=
  { ready with
    ports := []
    rq := [{ frame := { head := .tcp 1 0, unit := 1, fc := 3, data := [0, 7, 0, 1] }, origin := .tcp 0 }] }

/-- What the dispatch of that Request leaves. -/
def answered : State := (nextState? (dispatchStep .ok queued)).getD queued

/-- The Dispatcher moves once; from then on the connection's task reads no bytes, again and again. -/
def schedule : Nat → Option Action
  | 0 => some (.dispatch .ok)
  | _ + 1 => some (.read (.tcp 0) (.bytes []))

/-- The states of that run. -/
def history : Nat → State
  | 0 => queued
  | _ + 1 => answered

theorem test_answered : answered.txOf (.tcp 0) = [[0, 1, 0, 0, 0, 5, 1, 3, 2, 0, 3]] ∧ answered.rq = [] := by
  decide +kernel

theorem next_of_nextState? {r : Result} {s : State} (h : nextState? r = some s) : r = .next s := by
  cases r with
  | next t => exact congrArg _ (Option.some.inj h)
  | fault f => cases h
  | refused f => cases h

theorem history_isRun : isRun schedule history := fun n =>
  match n with
  | 0 => next_of_nextState? (by decide +kernel)
  | _ + 1 => next_of_nextState?
      (show nextState? (step { answered with agenda := [.read (.tcp 0) (.bytes [])] }) = some answered by decide +kernel)

/-- A transport that does not exist has no enabled step. -/
theorem task_not_enabled {s : State} {t : Transport} (h : s.link? t = none) : (Agent.task t).enabled s = false := by
  simp [Agent.enabled, canEnqueue, State.isOpen, h]

/-- From the first state on, only the connection's task has an enabled step, and it takes one in every step. -/
theorem history_weaklyFair : weaklyFair schedule history := by
  intro g n h
  have hn : g.enabled answered = true := h (n + 1) (Nat.le_succ n)
  have noPorts : answered.ports = [] := by decide +kernel
  have oneConn : answered.conns.length = 1 := by decide +kernel
  have task : g = .task (.tcp 0) := by
    rcases g with (p | _ | c) | _
    · rw [task_not_enabled (by simp [State.link?, noPorts])] at hn
      cases hn
    · rfl
    · rw [task_not_enabled (List.getElem?_eq_none (by omega))] at hn
      cases hn
    · exact absurd hn (by decide +kernel)
  exact ⟨n + 1, Nat.le_succ n, _, rfl, by rw [task]; rfl, by show Action.enabled _ answered = true; decide +kernel⟩

theorem witness_FairRunAnswersEveryRequest : isRun schedule history ∧ weaklyFair schedule history ∧
    (∀ n, (history n).alive = true ∧ (history n).shutdown = false) ∧ ∃ q, (history 0).rq[0]? = some q := by
  refine ⟨history_isRun, history_weaklyFair, fun n => ?_, _, rfl⟩
  cases n with
  | zero => exact ⟨rfl, rfl⟩
  | succ n => exact show answered.alive = true ∧ answered.shutdown = false by decide +kernel

theorem witness_NothingAfterShutdownIsObserved : stopping.shutdown = true ∧
    (∃ t, run 1 { stopping with agenda := [.read (.serial 0) (.bytes [1])] } = .next t) ∧
    noPokes [.read (.serial 0) (.bytes [1])] ∧ runEnded (destroyStep stopping) = true ∧ runEnded stopping = false :=
  ⟨rfl, ⟨_, rfl⟩, by simp [noPokes], rfl, rfl⟩

/-- The run ends when the reads left over have returned, here without bytes (R266). -/
theorem test_run_ends : (nextState? (run 2 { stopping with
      agenda := [.read (.serial 0) (.bytes []), .read (.tcp 0) (.bytes [])] })).map runResult =
    some (some (observe ready)) := by decide +kernel

theorem witness_RunResultIsStreamsAndBanks : Memory.wf (destroyStep stopping) = true ∧
    runEnded (destroyStep stopping) = true := by decide +kernel

/-- The invariant holds of `ready`, which steps. -/
theorem witness_StepKeepsInvariant : Inv ready ∧
    ∃ t, step { ready with agenda := [.read (.serial 0) (.bytes [1])] } = .next t := ⟨ready_inv, _, rfl⟩

theorem witness_OnlyHostPokeChangesInputs :
    ∃ t, step { ready with agenda := [.pokeWord .ir 65536 1] } = .next t := ⟨_, rfl⟩

theorem witness_BufferBelongsToItsReader :
    ∃ t, step { ready with agenda := [.read (.serial 0) (.bytes [1, 3])] } = .next t := ⟨_, rfl⟩

theorem witness_OnlyDispatchTransmits : ∃ t, step { ready with rq := [request], agenda := [.dispatch .ok] } = .next t :=
  have ⟨_, _, h, _⟩ := exec_responds (instrOf request) { ready with rq := [] }
  ⟨_, h⟩

theorem witness_ParametersAreConstant : ∃ t, step { ready with agenda := [.raiseShutdown] } = .next t := ⟨_, rfl⟩

end Sys2Proof.Tests
end

section
/-! PROOFS of the scope family: a step follows the first entry of the agenda (O47), a weakly fair run answers every
Request (O48), the parameters are constant (O58). -/

namespace Sys2Proof.Machine

/-! ## The agenda takes no part in what an action does

Each operation, given another agenda, does the same and leaves that agenda in its place. -/

/-- The state with another agenda. -/
def State.withAgenda (s : State) (l : List Action) : State := { s with agenda := l }

/-- A test decides the same with another agenda when both its branches do. -/
theorem ite_withAgenda {c : Prop} [Decidable c] {s s' t t' : State} {l : List Action} (hs : s' = s.withAgenda l)
    (ht : t' = t.withAgenda l) : (if c then s' else t') = (if c then s else t).withAgenda l := by
  split
  · exact hs
  · exact ht

theorem transmit_withAgenda (s : State) (l : List Action) (t : Transport) (adu : List Byte) :
    transmit t adu (s.withAgenda l) = (transmit t adu s).withAgenda l := by
  cases t <;> exact ite_withAgenda rfl rfl

theorem bankReadBit_withAgenda (s : State) (l : List Action) (b : BitBank) (a : Nat) :
    bankReadBit (s.withAgenda l) b a = bankReadBit s b a := by
  cases b <;> rfl

theorem bankReadWord_withAgenda (s : State) (l : List Action) (b : WordBank) (a : Nat) :
    bankReadWord (s.withAgenda l) b a = bankReadWord s b a := by
  cases b <;> rfl

theorem bankWriteBit_withAgenda (s : State) (l : List Action) (b : BitBank) (a : Nat) (v : Bool) :
    bankWriteBit (s.withAgenda l) b a v = (bankWriteBit s b a v).withAgenda l := by
  cases b <;> rfl

theorem bankWriteWord_withAgenda (s : State) (l : List Action) (b : WordBank) (a : Nat) (v : Word) :
    bankWriteWord (s.withAgenda l) b a v = (bankWriteWord s b a v).withAgenda l := by
  cases b <;> rfl

theorem writeBitRun_withAgenda (s : State) (l : List Action) (b : BitBank) (addr : Word) (f : Nat → Bool) (n : Nat) :
    writeBitRun b addr f n (s.withAgenda l) = (writeBitRun b addr f n s).withAgenda l := by
  induction n with
  | zero => rfl
  | succ n ih => rw [writeBitRun, ih, bankWriteBit_withAgenda, writeBitRun]

theorem writeWordRun_withAgenda (s : State) (l : List Action) (b : WordBank) (addr : Word) (f : Nat → Word) (n : Nat) :
    writeWordRun b addr f n (s.withAgenda l) = (writeWordRun b addr f n s).withAgenda l := by
  induction n with
  | zero => rfl
  | succ n ih => rw [writeWordRun, ih, bankWriteWord_withAgenda, writeWordRun]

/-- A handler gives the same outcome and makes the same changes. -/
theorem handle_withAgenda (i : Instr) (s : State) (l : List Action) :
    handle i (s.withAgenda l) = ((handle i s).1, (handle i s).2.withAgenda l) := by
  cases i with
  | rdco | rddi =>
    simp only [handle, handleReadBits, bankReadBit_withAgenda]
    split <;> rfl
  | rdhr | rdir =>
    simp only [handle, handleReadRegs, bankReadWord_withAgenda]
    split <;> rfl
  | wrmc =>
    simp only [handle, handleWriteCoils, writeBitRun_withAgenda]
    split <;> rfl
  | wrmr =>
    simp only [handle, handleWriteRegs, writeWordRun_withAgenda]
    split <;> rfl
  | _ => rfl

/-- Both runs of the instruction encode the same Response, because the handler's outcome is the same. -/
theorem exec_withAgenda {i : Instr} {s t : State} (h : exec i s = .next t) (l : List Action) :
    exec i (s.withAgenda l) = .next (t.withAgenda l) := by
  obtain ⟨adu, hadu, hx, -⟩ := exec_responds i s
  obtain ⟨adu', hadu', hx', -⟩ := exec_responds i (s.withAgenda l)
  rw [handle_withAgenda] at hadu' hx'
  have same : adu' = adu := Option.some.inj (hadu'.symm.trans hadu)
  cases hx.symm.trans h
  rw [hx', same, transmit_withAgenda]

theorem readStep_withAgenda (s : State) (l : List Action) (t : Transport) (a : ReadAnswer) :
    readStep t a (s.withAgenda l) = (readStep t a s).withAgenda l := by
  cases t with
  | serial p =>
    simp only [readStep, show (s.withAgenda l).ports = s.ports from rfl]
    cases s.ports[p]? with
    | none => rfl
    | some q => exact ite_withAgenda rfl rfl
  | tcp c =>
    simp only [readStep, show (s.withAgenda l).conns = s.conns from rfl]
    cases s.conns[c]? with
    | none => rfl
    | some k => exact ite_withAgenda rfl rfl

theorem enqueueStep_withAgenda (s : State) (l : List Action) (t : Transport) :
    enqueueStep t (s.withAgenda l) = (enqueueStep t s).withAgenda l := by
  have pend : (s.withAgenda l).pendOf t = s.pendOf t := pendOf_withAgenda s l t
  have enabled : canEnqueue (s.withAgenda l) t = canEnqueue s t := by cases t <;> rfl
  simp only [enqueueStep, pend, enabled]
  refine ite_withAgenda ?_ rfl
  cases s.pendOf t with
  | none => rfl
  | some r => cases t <;> rfl

theorem dispatchStep_withAgenda {w : WriteAnswer} {s t : State} (h : dispatchStep w s = .next t) (l : List Action) :
    dispatchStep w (s.withAgenda l) = .next (t.withAgenda l) := by
  have queue : (s.withAgenda l).rq = s.rq := rfl
  have enabled : canDispatch (s.withAgenda l) = canDispatch s := rfl
  simp only [dispatchStep, queue, enabled] at h ⊢
  split at h
  · rename_i hd
    rw [if_pos hd]
    cases hq : s.rq with
    | nil =>
      rw [hq] at h
      cases h
      rfl
    | cons r rest =>
      rw [hq] at h
      exact exec_withAgenda h l
  · rename_i hd
    rw [if_neg hd]
    cases h
    rfl

/-- What an action does is the same whatever else is to come, and it leaves that as it is. -/
theorem perform_withAgenda {a : Action} {s t : State} (h : perform a s = .next t) (l : List Action) :
    perform a (s.withAgenda l) = .next (t.withAgenda l) := by
  cases a with
  | dispatch w => exact dispatchStep_withAgenda h l
  | read u ans =>
    cases h
    exact congrArg Host.Outcome.next (readStep_withAgenda s l u ans)
  | enqueue u =>
    cases h
    exact congrArg Host.Outcome.next (enqueueStep_withAgenda s l u)
  | peekBit b a =>
    cases h
    rw [perform, bankReadBit_withAgenda]
    exact congrArg Host.Outcome.next (ite_withAgenda rfl rfl)
  | peekWord b a =>
    cases h
    rw [perform, bankReadWord_withAgenda]
    exact congrArg Host.Outcome.next (ite_withAgenda rfl rfl)
  | pokeBit b a v =>
    cases h
    exact congrArg Host.Outcome.next (ite_withAgenda (bankWriteBit_withAgenda s l b a v) rfl)
  | pokeWord b a v =>
    cases h
    exact congrArg Host.Outcome.next (ite_withAgenda (bankWriteWord_withAgenda s l b a v) rfl)
  | openSerial | accept | raiseShutdown | destroy =>
    cases h
    exact congrArg Host.Outcome.next (ite_withAgenda rfl rfl)

/-- No action writes the agenda: put the action's own agenda back into `perform_withAgenda`. -/
theorem perform_agenda {a : Action} {s t : State} (h : perform a s = .next t) : t.agenda = s.agenda := by
  have back : t = t.withAgenda s.agenda := Host.Outcome.next.inj (h.symm.trans (perform_withAgenda h s.agenda))
  exact (congrArg State.agenda back).trans rfl

/-- Settles O47: a step waits, or performs the first entry, whose work does not depend on the rest of the agenda. -/
theorem stepFollowsFirstEntry : Obligations.StepFollowsFirstEntry := by
  intro s t h
  rcases step_cases h with ⟨hnil, rfl⟩ | ⟨a, rest, hcons, hp⟩
  · refine ⟨by rw [hnil]; rfl, ?_⟩
    rw [step_of_agenda_nil (by simp [hnil]), hnil]
    rfl
  · refine ⟨by rw [perform_agenda hp, hcons]; rfl, ?_⟩
    rw [step_of_agenda_cons (a := a) (rest := []) (by simp [hcons])]
    exact perform_withAgenda hp []

/-! ## What an action does to the queue and to the parameters -/

/-- `READ_MAX`, `QUEUE_DEPTH` and `N_SERIAL` (R7) are the same. -/
def parametersSame (s t : State) : Prop :=
  t.readMax = s.readMax ∧ t.queueDepth = s.queueDepth ∧ t.nSerial = s.nSerial

/-- What the action `a` can do to the queue `q`. -/
inductive QueueStep (a : Action) (q : List Request) : List Request → Prop where
  /-- Nothing. -/
  | same : QueueStep a q q
  /-- A transport task puts a Request at the tail (R168). -/
  | gains {u : Transport} (r : Request) (action : a = .enqueue u) : QueueStep a q (q ++ [r])
  /-- The Dispatcher takes the head (R180). -/
  | loses {w : WriteAnswer} {r : Request} {rest : List Request} (action : a = .dispatch w) (queue : q = r :: rest) :
      QueueStep a q rest

/-- Only the Dispatcher takes Requests from the queue. -/
theorem QueueStep.prefix_of_no_dispatch {a : Action} {q q' : List Request} (h : QueueStep a q q')
    (quiet : ∀ w, a ≠ .dispatch w) : q <+: q' := by
  cases h with
  | same => exact List.prefix_rfl
  | gains r => exact List.prefix_append ..
  | loses action => exact absurd action (quiet _)

/-- What an action can do to the queue; it changes no parameter. -/
theorem perform_queue_parameters {a : Action} {s t : State} (h : perform a s = .next t) :
    QueueStep a s.rq t.rq ∧ parametersSame s t := by
  cases a with
  | read u ans =>
    cases h
    rcases readStep_cases u ans s with h | ⟨p, q, -, -, -, h⟩ | ⟨c, k, -, -, -, h⟩ <;>
      exact h.symm ▸ ⟨.same, rfl, rfl, rfl⟩
  | enqueue u =>
    cases h
    rcases enqueueStep_cases u s with h | ⟨r, -, -, -, -, h⟩
    · exact h.symm ▸ ⟨.same, rfl, rfl, rfl⟩
    · rw [h, parametersSame]
      simpa using QueueStep.gains r rfl
  | dispatch w =>
    rcases dispatchStep_cases w s with h' | ⟨r, rest, adu, -, -, hq, h'⟩
    · cases h'.symm.trans h
      exact ⟨.same, rfl, rfl, rfl⟩
    · cases h'.symm.trans h
      obtain ⟨co, di, hr, ir, e⟩ := handle_banksOnly (instrOf r) { s with rq := rest, writeAnswer := w }
      rw [e, parametersSame]
      simpa using QueueStep.loses rfl hq
  | openSerial =>
    cases h
    unfold openSerialStep
    split <;> exact ⟨.same, rfl, rfl, rfl⟩
  | accept =>
    cases h
    unfold acceptStep
    split <;> exact ⟨.same, rfl, rfl, rfl⟩
  | peekBit | peekWord =>
    cases h
    unfold hostPeek
    split <;> exact ⟨.same, rfl, rfl, rfl⟩
  | pokeBit b a v =>
    cases h
    unfold hostPokeBit parametersSame
    split <;> simpa using QueueStep.same
  | pokeWord b a v =>
    cases h
    unfold hostPokeWord parametersSame
    split <;> simpa using QueueStep.same
  | raiseShutdown =>
    cases h
    unfold raiseShutdownStep
    split <;> exact ⟨.same, rfl, rfl, rfl⟩
  | destroy =>
    cases h
    unfold destroyStep
    split <;> exact ⟨.same, rfl, rfl, rfl⟩

/-- Settles O58: a step waits or performs an action, and no action writes a parameter. -/
theorem parametersAreConstant : Obligations.ParametersAreConstant := by
  intro s t h
  rcases step_cases h with ⟨-, rfl⟩ | ⟨a, rest, -, hp⟩
  · exact ⟨rfl, rfl, rfl⟩
  · exact (perform_queue_parameters hp).2

/-! ## Weakly fair runs -/

/-- The Dispatcher's step on a queue with head `q` completes, answers `q` once and leaves the tail (R180, R192). -/
theorem step_dispatch_responds {w : WriteAnswer} {s t : State} {q : Request} {rest : List Request}
    (alive : s.alive = true) (up : s.shutdown = false) (queue : s.rq = q :: rest)
    (h : step { s with agenda := [.dispatch w] } = .next t) :
    ∃ resp, responds (instrOf q) { s with agenda := [], rq := rest, writeAnswer := w } t resp ∧ t.rq = rest := by
  have hexec : exec (instrOf q) { s with agenda := [], rq := rest, writeAnswer := w } = .next t := by
    simpa [step, perform, dispatchStep, canDispatch, alive, up, queue] using h
  obtain ⟨adu, -, hx, hresp⟩ := exec_responds (instrOf q) { s with agenda := [], rq := rest, writeAnswer := w }
  cases hx.symm.trans hexec
  have ⟨_, _, _, _, hrq, _⟩ := hresp
  exact ⟨_, hresp, hrq⟩

section FairRun

variable {acts : Nat → Option Action} {r : Nat → State}

/-- The Dispatcher is chosen at `n`. -/
def dispatchesAt (acts : Nat → Option Action) (n : Nat) : Prop := ∃ w, acts n = some (.dispatch w)

/-- While the Dispatcher does not move, the queue can only gain Requests at its tail. -/
theorem rq_prefix_of_no_dispatch (run : isRun acts r) {n m : Nat} (hnm : n ≤ m)
    (quiet : ∀ j, n ≤ j → j < m → ¬ dispatchesAt acts j) : (r n).rq <+: (r m).rq := by
  induction m, hnm using Nat.le_induction with
  | base => exact List.prefix_rfl
  | succ m hnm ih =>
    have before : (r n).rq <+: (r m).rq := ih fun j hj hjm => quiet j hj (hjm.trans m.lt_succ_self)
    have now : (r m).rq <+: (r (m + 1)).rq := by
      have hstep := run m
      cases ha : acts m with
      | none =>
        rw [step_of_agenda_nil (by rw [ha]; rfl)] at hstep
        exact congrArg State.rq (Host.Outcome.next.inj hstep) ▸ List.prefix_rfl
      | some a =>
        rw [step_of_agenda_cons (a := a) (rest := []) (by rw [ha]; rfl)] at hstep
        exact (perform_queue_parameters hstep).1.prefix_of_no_dispatch fun w hw =>
          quiet m hnm m.lt_succ_self ⟨w, ha.trans (congrArg some hw)⟩
    exact before.trans now

/-- In a weakly fair run a queue that is not empty makes the Dispatcher move: it would stay enabled for ever. -/
theorem eventually_dispatches (run : isRun acts r) (fair : weaklyFair acts r)
    (up : ∀ n, (r n).alive = true ∧ (r n).shutdown = false) {n : Nat} (queue : (r n).rq ≠ []) :
    ∃ m, n ≤ m ∧ dispatchesAt acts m := by
  by_contra never
  have quiet : ∀ m, n ≤ m → ¬ dispatchesAt acts m := fun m hm hd => never ⟨m, hm, hd⟩
  have enabled : ∀ m, n ≤ m → Agent.dispatcher.enabled (r m) = true := fun m hm => by
    have grown := rq_prefix_of_no_dispatch run hm fun j hj _ => quiet j hj
    have nonempty : (r m).rq ≠ [] := fun e => queue (List.prefix_nil.mp (e ▸ grown))
    simp [Agent.enabled, canDispatch, up m, nonempty]
  obtain ⟨m, hm, a, ha, hagent, -⟩ := fair .dispatcher n enabled
  cases a with
  | dispatch w => exact quiet m hm ⟨w, ha⟩
  | _ => cases hagent

/-- The first move of the Dispatcher from `n` on finds the queue of `n`, with what has come to its tail since. -/
theorem next_dispatch (run : isRun acts r) (fair : weaklyFair acts r)
    (up : ∀ n, (r n).alive = true ∧ (r n).shutdown = false) {n : Nat} (queue : (r n).rq ≠ []) :
    ∃ m w tail, n ≤ m ∧ acts m = some (.dispatch w) ∧ (r m).rq = (r n).rq ++ tail := by
  classical
  have moves := eventually_dispatches run fair up queue
  obtain ⟨hnm, w, hw⟩ := Nat.find_spec moves
  obtain ⟨tail, htail⟩ := rq_prefix_of_no_dispatch run hnm fun j hj hlt hd => Nat.find_min moves hlt ⟨hj, hd⟩
  exact ⟨_, w, tail, hnm, hw, htail.symm⟩

/-- That move answers the head of the queue and leaves the others in their order. -/
theorem head_answered (run : isRun acts r) (fair : weaklyFair acts r)
    (up : ∀ n, (r n).alive = true ∧ (r n).shutdown = false) {n : Nat} {q : Request} {rest : List Request}
    (queue : (r n).rq = q :: rest) :
    ∃ m w tail resp, n ≤ m ∧ acts m = some (.dispatch w) ∧ (r m).rq = q :: rest ++ tail ∧
      responds (instrOf q) { r m with agenda := [], rq := rest ++ tail, writeAnswer := w } (r (m + 1)) resp ∧
      (r (m + 1)).rq = rest ++ tail := by
  obtain ⟨m, w, tail, hnm, hw, hrq⟩ := next_dispatch run fair up (n := n) (by simp [queue])
  rw [queue] at hrq
  have hstep := run m
  rw [hw] at hstep
  obtain ⟨resp, hresp, hnext⟩ := step_dispatch_responds (up m).1 (up m).2 hrq hstep
  exact ⟨m, w, tail, resp, hnm, hw, hrq, hresp, hnext⟩

end FairRun

/-- Settles O48, by induction on the place `k` of the Request: the next dispatch answers the head, and moves every other
Request one place forward. -/
theorem fairRunAnswersEveryRequest : Obligations.FairRunAnswersEveryRequest := by
  intro acts r run fair up n k q hq
  induction k generalizing n with
  | zero =>
    obtain ⟨rest, queue⟩ : ∃ rest, (r n).rq = q :: rest := List.head?_eq_some_iff.mp (List.head?_eq_getElem? ▸ hq)
    obtain ⟨m, w, tail, resp, hnm, hw, hrq, hresp, -⟩ := head_answered run fair up queue
    exact ⟨m, w, tail, resp, hnm, hw, by rw [hrq, queue, List.drop_zero], by rw [hrq]; exact hresp⟩
  | succ k ih =>
    cases queue : (r n).rq with
    | nil => simp [queue] at hq
    | cons p rest =>
      rw [queue, List.getElem?_cons_succ] at hq
      have hk : k < rest.length := (List.getElem?_eq_some_iff.mp hq).1
      obtain ⟨m, -, tail, -, hnm, -, -, -, hnext⟩ := head_answered run fair up queue
      have moved : (r (m + 1)).rq[k]? = some q := by rw [hnext, List.getElem?_append_left hk, hq]
      obtain ⟨m', w, tail', resp, hm', hw, hrq, hresp⟩ := ih (m + 1) moved
      refine ⟨m', w, tail ++ tail', resp, by omega, hw, ?_, hresp⟩
      rw [hrq, hnext, List.drop_append_of_le_length hk.le, List.drop_succ_cons, List.append_assoc]

end Sys2Proof.Machine
end

section
/-! PROOFS of the state family: the queue is first in, first out (O39), the inputs belong to the host (O55), only a
dispatch step sends (O57), and the reset state (O53, O54). -/

namespace Sys2Proof.Machine

/-! ## The queue -/

/-- In every way an action can move the queue, it loses at most its head and gains at most a tail (R30, R198). -/
theorem QueueStep.firstInFirstOut {a : Action} {q q' : List Request} (h : QueueStep a q q') :
    q' = q ∨ (∃ r, q' = q ++ [r]) ∨ ∃ r, q = r :: q' := by
  cases h with
  | same => exact .inl rfl
  | gains r => exact .inr (.inl ⟨r, rfl⟩)
  | loses _ queue => exact .inr (.inr ⟨_, queue⟩)

/-- Settles O39: a step waits, or performs an action, whose only ways with the queue are those of `QueueStep`. -/
theorem queueIsFirstInFirstOut : Obligations.QueueIsFirstInFirstOut := by
  intro s t h
  rcases step_cases h with ⟨-, rfl⟩ | ⟨a, rest, -, hp⟩
  · exact .inl rfl
  · exact (perform_queue_parameters hp).1.firstInFirstOut

/-! ## The inputs in a dispatch step -/

/-- The handler of a bit read leaves the state as it is (R185, R186). -/
theorem handleReadBits_state (b : BitBank) (data : List Byte) (s : State) : (handleReadBits b data s).2 = s := by
  unfold handleReadBits
  split <;> rfl

/-- The handler of a register read leaves the state as it is (R187, R188). -/
theorem handleReadRegs_state (b : WordBank) (data : List Byte) (s : State) : (handleReadRegs b data s).2 = s := by
  unfold handleReadRegs
  split <;> rfl

/-- The handler of `WRMC` changes at most the coils (R189). -/
theorem handleWriteCoils_state (data : List Byte) (s : State) :
    ∃ m, (handleWriteCoils data s).2 = { s with co := m } := by
  unfold handleWriteCoils
  split
  · exact ⟨s.co, rfl⟩
  · exact writeBitRun_co_frame ..

/-- The handler of `WRMR` changes at most the Holding Registers (R190). -/
theorem handleWriteRegs_state (data : List Byte) (s : State) :
    ∃ m, (handleWriteRegs data s).2 = { s with hr := m } := by
  unfold handleWriteRegs
  split
  · exact ⟨s.hr, rfl⟩
  · exact writeWordRun_hr_frame ..

/-- No handler writes a Discrete Input or an Input Register (R21, R23). -/
theorem handle_inputs (i : Instr) (s : State) : (handle i s).2.di = s.di ∧ (handle i s).2.ir = s.ir := by
  cases i with
  | rdco | rddi => simp [handle, handleReadBits_state]
  | rdhr | rdir => simp [handle, handleReadRegs_state]
  | wrmc q data =>
    obtain ⟨m, hm⟩ := handleWriteCoils_state data s
    simp [handle, hm]
  | wrmr q data =>
    obtain ⟨m, hm⟩ := handleWriteRegs_state data s
    simp [handle, hm]
  | _ => exact ⟨rfl, rfl⟩

/-! ## What an action does to the banks and the streams

`observe` (R266) holds the four banks and the streams, so each agent's step is described once by what becomes of it. -/

/-- The stream of a serial port is read off the observation. -/
theorem txOf_serial (s : State) (p : Nat) : s.txOf (.serial p) = (observe s).serial.getD p [] := by
  simp only [State.txOf, State.link?, observe, List.getD_eq_getElem?_getD, List.getElem?_map]
  cases s.ports[p]? <;> rfl

/-- The stream of a TCP connection is read off the observation. -/
theorem txOf_tcp (s : State) (c : Nat) : s.txOf (.tcp c) = (observe s).tcp.getD c [] := by
  simp only [State.txOf, State.link?, observe, List.getD_eq_getElem?_getD, List.getElem?_map]
  cases s.conns[c]? <;> rfl

/-- Replacing an element by one with the same image keeps the list of images. -/
theorem map_set_of_eq {α β : Type} {f : α → β} {l : List α} {i : Nat} {x y : α} (hx : l[i]? = some x)
    (hf : f y = f x) : (l.set i y).map f = l.map f := by
  obtain ⟨hi, rfl⟩ := List.getElem?_eq_some_iff.mp hx
  rw [List.map_set, hf, ← List.getElem_map f (h := by simpa using hi), List.set_getElem_self]

/-- Changing an element but not its image keeps the list of images. -/
theorem map_modify_of_eq {α β : Type} {f : α → β} {g : α → α} (hf : ∀ x, f (g x) = f x) (l : List α) (i : Nat) :
    (l.modify i g).map f = l.map f := by
  induction l generalizing i with
  | nil => simp
  | cons x l ih => cases i <;> simp [hf, ih]

/-- A read step sends nothing and writes no bank. -/
theorem observe_readStep (u : Transport) (a : ReadAnswer) (s : State) : observe (readStep u a s) = observe s := by
  rcases readStep_cases u a s with h | ⟨p, q, -, hq, -, h⟩ | ⟨c, l, -, hl, -, h⟩
  · rw [h]
  · have tx : (serialRead p a q).link.tx = q.link.tx := (serialRead_link p a q).2.1
    rw [h, observe, observe, map_set_of_eq hq tx]
  · rw [h, observe, observe, map_set_of_eq hl (tcpRead_cases c a l).1]

/-- Changing a link but not its stream is not observed. -/
theorem observe_modLink {f : Link → Link} (hf : ∀ l, (f l).tx = l.tx) (u : Transport) (s : State) :
    observe (s.modLink u f) = observe s := by
  cases u with
  | serial p => simp [State.modLink, observe, map_modify_of_eq, hf]
  | tcp c => simp [State.modLink, observe, map_modify_of_eq, hf]

/-- An enqueue step sends nothing and writes no bank. -/
theorem observe_enqueueStep (u : Transport) (s : State) : observe (enqueueStep u s) = observe s := by
  rcases enqueueStep_cases u s with h | ⟨r, -, -, -, -, h⟩
  · rw [h]
  · rw [h]
    exact observe_modLink (f := fun l => { l with pend := none }) (fun _ => rfl) u s

/-- Raising shutdown sends nothing and writes no bank. -/
theorem observe_raiseShutdownStep (s : State) : observe (raiseShutdownStep s) = observe s := by
  unfold raiseShutdownStep
  split
  · simp [observe]
  · rfl

/-- Destruction sends nothing and writes no bank. -/
theorem observe_destroyStep (s : State) : observe (destroyStep s) = observe s := by
  unfold destroyStep
  split
  · simp [observe]
  · rfl

/-- What the action `a` can do to the banks and the streams, in the step from `s` to `t`. -/
inductive Effect (a : Action) (s t : State) : Prop where
  /-- Nothing. -/
  | none (same : observe t = observe s)
  /-- The host opens a serial port, with nothing sent (R39). -/
  | opened (action : a = .openSerial) (gains : observe t = { observe s with serial := (observe s).serial ++ [[]] })
  /-- The listener hands over a connection, with nothing sent (R39). -/
  | accepted (action : a = .accept) (gains : observe t = { observe s with tcp := (observe s).tcp ++ [[]] })
  /-- The host writes a bit (R237). -/
  | pokedBit (b : BitBank) (k : Nat) (v : Bool) (action : a = .pokeBit b k v) (written : t = bankWriteBit s b k v)
  /-- The host writes a word (R237). -/
  | pokedWord (b : WordBank) (k : Nat) (v : Word) (action : a = .pokeWord b k v) (written : t = bankWriteWord s b k v)
  /-- The Dispatcher takes the head of `RQ` and answers it (R180). -/
  | dispatched (w : WriteAnswer) (r : Request) (rest : List Request) (adu : List Byte) (action : a = .dispatch w)
      (queue : s.rq = r :: rest)
      (sent : t = transmit r.origin adu (handle (instrOf r) { s with rq := rest, writeAnswer := w }).2)

/-- Every action has one of these effects. -/
theorem perform_effect {a : Action} {s t : State} (h : perform a s = .next t) : Effect a s t := by
  cases a with
  | read u ans =>
    cases h
    exact .none (observe_readStep u ans s)
  | enqueue u =>
    cases h
    exact .none (observe_enqueueStep u s)
  | dispatch w =>
    rcases dispatchStep_cases w s with waits | ⟨r, rest, adu, -, -, queue, answers⟩
    · cases waits.symm.trans h
      exact .none rfl
    · cases answers.symm.trans h
      exact .dispatched w r rest adu rfl queue (by rw [instrOf_origin])
  | openSerial =>
    cases h
    unfold openSerialStep
    split
    · exact .opened rfl (by simp [observe, Port.fresh, Link.fresh])
    · exact .none rfl
  | accept =>
    cases h
    unfold acceptStep
    split
    · exact .accepted rfl (by simp [observe, Link.fresh])
    · exact .none rfl
  | peekBit | peekWord =>
    cases h
    unfold hostPeek
    split <;> exact .none rfl
  | pokeBit b k v =>
    cases h
    unfold hostPokeBit
    split
    · exact .pokedBit b k v rfl rfl
    · exact .none rfl
  | pokeWord b k v =>
    cases h
    unfold hostPokeWord
    split
    · exact .pokedWord b k v rfl rfl
    · exact .none rfl
  | raiseShutdown =>
    cases h
    exact .none (observe_raiseShutdownStep s)
  | destroy =>
    cases h
    exact .none (observe_destroyStep s)

/-! ## The inputs -/

/-- Only a HostPoke of the Discrete Inputs changes them, and only one of the Input Registers changes those. -/
theorem Effect.inputs {a : Action} {s t : State} (h : Effect a s t) :
    (t.di = s.di ∨ ∃ k v, a = .pokeBit .di k v) ∧ (t.ir = s.ir ∨ ∃ k v, a = .pokeWord .ir k v) := by
  cases h with
  | none same => exact ⟨.inl (congrArg Observation.di same), .inl (congrArg Observation.ir same)⟩
  | opened _ gains => exact ⟨.inl (congrArg Observation.di gains), .inl (congrArg Observation.ir gains)⟩
  | accepted _ gains => exact ⟨.inl (congrArg Observation.di gains), .inl (congrArg Observation.ir gains)⟩
  | pokedBit b k v action written =>
    subst written
    cases b with
    | co => simp
    | di => exact ⟨.inr ⟨k, v, action⟩, .inl (by simp)⟩
  | pokedWord b k v action written =>
    subst written
    cases b with
    | hr => simp
    | ir => exact ⟨.inl (by simp), .inr ⟨k, v, action⟩⟩
  | dispatched w r rest adu _ _ sent =>
    subst sent
    simp [handle_inputs]

/-- Settles O55: a step waits or performs an action, and `Effect` says which actions change the inputs. -/
theorem onlyHostPokeChangesInputs : Obligations.OnlyHostPokeChangesInputs := by
  intro s t h
  rcases step_cases h with ⟨-, rfl⟩ | ⟨a, rest, hcons, hp⟩
  · exact ⟨.inl rfl, .inl rfl⟩
  · simpa [hcons] using (perform_effect hp).inputs

/-! ## The streams -/

/-- Past the end of a list the default is read, so a default at the tail is not seen. -/
theorem getD_concat_default {α : Type} (l : List α) (d : α) (i : Nat) : (l ++ [d]).getD i d = l.getD i d := by
  induction l generalizing i with
  | nil => cases i <;> rfl
  | cons x l ih =>
    cases i with
    | zero => rfl
    | succ i => exact ih i

/-- An action leaves a stream as it is, or the Dispatcher takes a Request from the head of `RQ` and sends one ADU on the
transport the Request came from (R31, R194). -/
theorem Effect.stream {a : Action} {s t : State} (h : Effect a s t) (u : Transport) :
    t.txOf u = s.txOf u ∨
      (∃ w adu, a = .dispatch w ∧ t.txOf u = s.txOf u ++ [adu]) ∧ ∃ r, s.rq = r :: t.rq ∧ r.origin = u := by
  cases h with
  | none same => cases u <;> simp [txOf_serial, txOf_tcp, same]
  | opened _ gains =>
    left
    cases u with
    | serial p => rw [txOf_serial, txOf_serial, gains, getD_concat_default]
    | tcp c => rw [txOf_tcp, txOf_tcp, gains]
  | accepted _ gains =>
    left
    cases u with
    | serial p => rw [txOf_serial, txOf_serial, gains]
    | tcp c => rw [txOf_tcp, txOf_tcp, gains, getD_concat_default]
  | pokedBit b k v _ written => simp [written, State.txOf]
  | pokedWord b k v _ written => simp [written, State.txOf]
  | dispatched w r rest adu action queue sent =>
    have banks := handle_banksOnly (instrOf r) { s with rq := rest, writeAnswer := w }
    have tail : t.rq = rest := sent ▸ (restSame_transmit banks r.origin adu).1
    have before : ({ s with rq := rest, writeAnswer := w } : State).txOf u = s.txOf u := by cases u <;> rfl
    have gains := streamGains_transmit banks r.origin adu u
    rw [← sent, before] at gains
    split at gains
    · rename_i origin
      exact .inr ⟨⟨w, adu, action, gains⟩, r, by rw [queue, tail], origin.1.symm⟩
    · exact .inl gains

/-- Settles O57: a step waits or performs an action, and `Effect` says which actions send. -/
theorem onlyDispatchTransmits : Obligations.OnlyDispatchTransmits := by
  intro s t u h
  rcases step_cases h with ⟨-, rfl⟩ | ⟨a, rest, hcons, hp⟩
  · exact .inl rfl
  · simpa [hcons] using (perform_effect hp).stream u

/-! ## Reset -/

/-- No transport exists after reset (R39). -/
@[simp] theorem reset_link? (t : Transport) : State.reset.link? t = none := by cases t <;> rfl

/-- No port exists after reset, so nothing is buffered (R39). -/
@[simp] theorem reset_rxbufOf (p : Nat) : State.reset.rxbufOf p = [] := rfl

/-- Settles O53. The parameters are at least 1 because each is a successor (R7); every other clause speaks of an empty
bank, an empty queue or a transport that does not exist. -/
theorem resetMeetsInvariant : Obligations.ResetMeetsInvariant where
  memory := rfl
  buffers := by simp
  queue := Nat.zero_le _
  queued := by simp [State.reset]
  pending := by simp [pendOk, State.pendOf]
  reads := by simp [State.inReadOf]
  ports := Nat.zero_le _
  parameters := ⟨Nat.succ_pos _, Nat.succ_pos _⟩
  destroyed := nofun

/-- Each entry of the constant table is the eight shifts of its index (R130). -/
theorem crcEntry_eq_crcShift8 : ∀ i : Byte, crcEntry i = crcShift8 (i.setWidth 16) := by decide +kernel

/-- Settles O54: an empty bank reads 0, what belongs to a transport is empty because none exists, and the table is
`crcEntry_eq_crcShift8`. -/
theorem resetValues : Obligations.ResetValues := by
  refine ⟨fun b a => ?_, fun b a => ?_, reset_rxbufOf, rfl, fun t => ?_, fun t => ?_, rfl, fun t => ?_,
    crcEntry_eq_crcShift8⟩
  · cases b <;> rfl
  · cases b <;> rfl
  · simp [State.pendOf]
  · simp [State.txOf]
  · simp [State.isOpen]

end Sys2Proof.Machine
end

section
/-! PROOFS of the encoding family: four frames decode to their instructions (O5), the layout of an encoded TCP frame (O9)
and of an encoded RTU frame (O10), and the operands in the Data (O14). -/

namespace Sys2Proof.Machine

/-! ## Bytes -/

/-- A word's two bytes, weighted by their places, give the word back (R8). -/
theorem hi8_lo8_toNat (w : Word) : 256 * (hi8 w).toNat + (lo8 w).toNat = w.toNat := by
  rw [← u16be_toNat, u16be_hi8_lo8]

theorem byteAt_append_length_add (s t : List Byte) (i : Nat) : byteAt (s ++ t) (s.length + i) = byteAt t i := by
  rw [byteAt, List.getD_append_right _ _ _ _ (Nat.le_add_right ..), Nat.add_sub_cancel_left, byteAt]

/-- A checksum's low byte comes first (R95). -/
theorem byteAt_append_crcBytes_low (s : List Byte) (c : Word) : byteAt (s ++ crcBytes c) s.length = lo8 c :=
  byteAt_append_length_add s (crcBytes c) 0

theorem byteAt_append_crcBytes_high (s : List Byte) (c : Word) : byteAt (s ++ crcBytes c) (s.length + 1) = hi8 c :=
  byteAt_append_length_add s (crcBytes c) 1

/-! ## What the encoder gives -/

theorem encodeFrame_tcp (txn proto : Word) (unit fc : Byte) {data : List Byte} (h : data.length ≤ Config.tcpMaxData) :
    encodeFrame { head := .tcp txn proto, unit := unit, fc := fc, data := data } =
      some (tcpAdu txn proto unit fc data) := if_pos h

/-- The checksum the Frame carries has no part in it (R146). -/
theorem encodeFrame_rtu (crc : Option Word) (unit fc : Byte) (data : List Byte) :
    encodeFrame { head := .rtu crc, unit := unit, fc := fc, data := data } =
      some (unit :: fc :: (data ++ crcBytes (crc16 (unit :: fc :: data)))) := rfl

/-- The eight header bytes of a TCP ADU, in the order sent (R91). -/
theorem tcpAdu_eq_cons (txn proto : Word) (unit fc : Byte) (data : List Byte) :
    tcpAdu txn proto unit fc data =
      hi8 txn :: lo8 txn :: hi8 proto :: lo8 proto :: hi8 (BitVec.ofNat 16 (2 + data.length)) ::
        lo8 (BitVec.ofNat 16 (2 + data.length)) :: unit :: fc :: data := rfl

/-- Settles O9: the header word by word, each field's two bytes giving its word back. Within the encoder's domain the
Length fits its word. -/
theorem tcpAduLayout : Obligations.TcpAduLayout := by
  intro txn proto unit fc data hdata
  have fits : (BitVec.ofNat 16 (2 + data.length)).toNat = 2 + data.length := by
    rw [BitVec.toNat_ofNat, Nat.mod_eq_of_lt (by omega)]
  have counted : (tcpAdu txn proto unit fc data).length - 6 = 2 + data.length := by
    rw [tcpAdu_length]
    omega
  refine ⟨_, encodeFrame_tcp txn proto unit fc hdata, tcpAdu_length .., ?_, ?_, ?_, ?_⟩
  · exact hi8_lo8_toNat txn
  · exact hi8_lo8_toNat proto
  · rw [counted, ← fits]
    exact hi8_lo8_toNat (BitVec.ofNat 16 (2 + data.length))
  · simp [tcpAdu_eq_cons]

/-- Settles O10: the checksum's bytes stand just behind the Data, the low one first. -/
theorem rtuAduLayout : Obligations.RtuAduLayout := by
  intro crc unit fc data
  refine ⟨_, encodeFrame_rtu crc unit fc data, encodeRtu_length ⟨.rtu crc, unit, fc, data⟩, rfl, rfl, ?_, ?_⟩
  · exact List.take_left
  · simp only [byteAt_cons_succ, byteAt_append_crcBytes_low, byteAt_append_crcBytes_high]
    rw [Nat.add_comm, hi8_lo8_toNat]

/-! ## The operands -/

theorem addrOf_cons (a1 a0 : Byte) (rest : List Byte) : addrOf (a1 :: a0 :: rest) = u16be a1 a0 := rfl

theorem countOf_cons (a1 a0 c1 c0 : Byte) (rest : List Byte) :
    countOf (a1 :: a0 :: c1 :: c0 :: rest) = (u16be c1 c0).toNat := rfl

/-- Settles O14: both operands are big-endian words, and `u16be_toNat` is what such a word amounts to. -/
theorem operandAssembly : Obligations.OperandAssembly := by
  refine ⟨fun a1 a0 c1 c0 rest => ⟨?_, ?_⟩, by decide, by decide⟩
  · rw [addrOf_cons, u16be_toNat]
  · rw [countOf_cons, u16be_toNat]

/-! ## Four frames -/

/-- Settles O5: evaluating the decoder on each frame gives its instruction, the three checksums being recomputed (R144). -/
theorem specWordsDecode : Obligations.SpecWordsDecode := ⟨rfl, rfl, rfl, rfl⟩

end Sys2Proof.Machine
end

section
/-! PROOFS of the CRC family: each table entry is eight shifts of its index (O1), the definitions with and without the table
agree (O2), and a sequence with its own checksum behind it has the checksum 0 (O3). The one idea is that the table holds the
eight shifts of the low byte, and the shift is linear, so the per-byte update is eight shifts of the whole word. -/

namespace Sys2Proof.Machine

/-! ## The per-byte update is eight shifts -/

/-- Eight shifts push the low byte out, which leaves its table entry behind, and move the high byte down. -/
theorem crcShift8_eq_shift_xor_entry (c : Word) : crcShift8 c = (c >>> 8) ^^^ crcEntry (lo8 c) := by
  calc crcShift8 c
      = crcShift8 (hi8 c ++ 0#8) ^^^ crcShift8 ((lo8 c).setWidth 16) := by
        rw [← crcShift8_xor]
        exact congrArg crcShift8 (word_eq_high_xor_low c)
    _ = (hi8 c).setWidth 16 ^^^ crcEntry (lo8 c) := by rw [crcShift8_high, crcEntry_eq_crcShift8]
    _ = (c >>> 8) ^^^ crcEntry (lo8 c) := by rw [hi8, high_setWidth]

/-- A byte has no bits above its eight. -/
theorem setWidth_shiftRight_eight (b : Byte) : b.setWidth 16 >>> 8 = 0#16 := by
  bv_omega

/-- The update of R131 is the loop body of R132. -/
theorem crcUpdate_eq_crcShift8 (c : Word) (b : Byte) : crcUpdate c b = crcShift8 (c ^^^ b.setWidth 16) := by
  have high : (c ^^^ b.setWidth 16) >>> 8 = c >>> 8 := by
    rw [BitVec.ushiftRight_xor_distrib, setWidth_shiftRight_eight, BitVec.xor_zero]
  rw [crcShift8_eq_shift_xor_entry, high, crcUpdate, lo8]

/-- Settles O2: both definitions fold over the sequence from the same word, and their updates are the same function. -/
theorem crcTableAndBitwiseAgree : Obligations.CrcTableAndBitwiseAgree := by
  intro s
  have updates : crcUpdate = fun c b => crcShift8 (c ^^^ b.setWidth 16) :=
    funext fun c => funext (crcUpdate_eq_crcShift8 c)
  rw [crc16, crc16Bitwise, updates]

/-! ## A checksum behind its sequence -/

/-- A checksum's low byte cancels its own low half. -/
theorem xor_lo8 (c : Word) : c ^^^ (lo8 c).setWidth 16 = hi8 c ++ 0#8 :=
  calc c ^^^ (lo8 c).setWidth 16
      = (hi8 c ++ 0#8) ^^^ (lo8 c).setWidth 16 ^^^ (lo8 c).setWidth 16 :=
        congrArg (· ^^^ (lo8 c).setWidth 16) (word_eq_high_xor_low c)
    _ = hi8 c ++ 0#8 := by rw [BitVec.xor_assoc, BitVec.xor_self, BitVec.xor_zero]

/-- After its own low byte, what is left of a checksum is its high byte. -/
theorem crcUpdate_lo8 (c : Word) : crcUpdate c (lo8 c) = (hi8 c).setWidth 16 := by
  rw [crcUpdate_eq_crcShift8, xor_lo8, crcShift8_high]

/-- A byte cancels itself, and eight shifts of 0 give 0. -/
theorem crcUpdate_setWidth_self (b : Byte) : crcUpdate (b.setWidth 16) b = 0#16 := by
  rw [crcUpdate_eq_crcShift8, BitVec.xor_self]
  rfl

/-- Settles O3: the low byte cancels the low half of the checksum, then the high byte what has moved down. -/
theorem crcOfSequenceWithItsChecksumIsZero : Obligations.CrcOfSequenceWithItsChecksumIsZero := by
  intro s
  calc crc16 (s ++ [lo8 (crc16 s), hi8 (crc16 s)])
      = crcUpdate (crcUpdate (crc16 s) (lo8 (crc16 s))) (hi8 (crc16 s)) := crc16_append ..
    _ = 0#16 := by rw [crcUpdate_lo8, crcUpdate_setWidth_self]

/-! ## The table -/

/-- The table is four quarters of 64 entries, each counted by evaluation (R130). -/
theorem crcTable_length : crcTable.length = 256 := by
  have quarter0 : crcTable0.length = 64 := rfl
  have quarter1 : crcTable1.length = 64 := rfl
  have quarter2 : crcTable2.length = 64 := rfl
  have quarter3 : crcTable3.length = 64 := rfl
  simp only [crcTable, List.length_append, quarter0, quarter1, quarter2, quarter3]

/-- Settles O1: `crcTable_length` counts the entries and `crcEntry_eq_crcShift8` evaluates each of them. -/
theorem crcTableHoldsEightShifts : Obligations.CrcTableHoldsEightShifts := ⟨crcTable_length, crcEntry_eq_crcShift8⟩

end Sys2Proof.Machine
end

section
/-! PROOFS of the frame codec family: encode and decode are inverse to each other (O6, O7), a Frame survives the round
trip (O8), and the operands given to the payload builders are read back (O15, O16). The one idea of the first three is
that a decoder accepts exactly the encodings of well-formed Frames: one equivalence per format, then one for all
instructions. -/

namespace Sys2Proof.Machine

/-! ## What each decoder makes of an ADU -/

/-- Of eight header bytes and the Data, the TCP decoder tests only the Length (R143). -/
theorem decodeTcp_cons (t1 t0 p1 p0 l1 l0 unit fc : Byte) (data : List Byte) :
    decodeTcp (t1 :: t0 :: p1 :: p0 :: l1 :: l0 :: unit :: fc :: data) =
      if (u16be l1 l0).toNat = 2 + data.length then
        .ok { head := .tcp (u16be t1 t0) (u16be p1 p0), unit := unit, fc := fc, data := data }
      else .error .malformedFrame := by
  have counted : data.length + 8 - 6 = 2 + data.length := by omega
  simp [decodeTcp, Config.tcpMin, counted]

/-- Of bytes with Data between the function code and the last two, the RTU decoder tests only those two (R144). -/
theorem decodeRtu_body_append (unit fc l h : Byte) {data : List Byte} (nonempty : 1 ≤ data.length) :
    decodeRtu (unit :: fc :: data ++ [l, h]) =
      if u16le l h = crc16 (unit :: fc :: data) then
        .ok { head := .rtu (some (u16le l h)), unit := unit, fc := fc, data := data }
      else .error .checksumMismatch := by
  have len : (unit :: fc :: data ++ [l, h]).length = (unit :: fc :: data).length + 2 := by simp
  have long : ¬ (unit :: fc :: data).length + 2 < Config.rtuMin := by
    simp [Config.rtuMin]
    omega
  have low : byteAt (unit :: fc :: data ++ [l, h]) (unit :: fc :: data).length = l :=
    byteAt_append_length_add _ _ 0
  have high : byteAt (unit :: fc :: data ++ [l, h]) ((unit :: fc :: data).length + 2 - 1) = h :=
    byteAt_append_length_add _ _ 1
  unfold decodeRtu
  simp only [len, if_neg long, Nat.add_sub_cancel, List.take_left, low, high, ite_not]
  rfl

/-! ## A decoder accepts exactly the encodings -/

/-- What the TCP decoder accepts is the ADU of the Frame it gives: the Length it tested is the one the encoder computes,
and a Length fits a word only within the encoder's domain (R93, R150). -/
theorem decodeTcp_eq_ok_iff (b : List Byte) (f : Frame) :
    decodeTcp b = .ok f ↔
      ∃ txn proto, f.head = .tcp txn proto ∧ f.data.length ≤ Config.tcpMaxData ∧
        b = tcpAdu txn proto f.unit f.fc f.data := by
  constructor
  · intro h
    match b with
    | [] | [_] | [_, _] | [_, _, _] | [_, _, _, _] | [_, _, _, _, _] | [_, _, _, _, _, _] | [_, _, _, _, _, _, _] =>
      cases h
    | t1 :: t0 :: p1 :: p0 :: l1 :: l0 :: unit :: fc :: data =>
      rw [decodeTcp_cons] at h
      split at h
      next counted =>
        cases h
        have word : BitVec.ofNat 16 (2 + data.length) = u16be l1 l0 := by
          rw [← counted, BitVec.ofNat_toNat, BitVec.setWidth_eq]
        have fits : 2 + data.length < 65536 := counted ▸ (u16be l1 l0).isLt
        refine ⟨_, _, rfl, ?_, ?_⟩
        · show data.length ≤ 65533
          omega
        · simp [tcpAdu_eq_cons, word]
      next => cases h
  · rintro ⟨txn, proto, head, inDomain, rfl⟩
    have fits : f.data.length ≤ 65533 := inDomain
    have counted : (BitVec.ofNat 16 (2 + f.data.length)).toNat = 2 + f.data.length := by
      rw [BitVec.toNat_ofNat, Nat.mod_eq_of_lt (by omega)]
    rw [tcpAdu_eq_cons, decodeTcp_cons, u16be_hi8_lo8, u16be_hi8_lo8, u16be_hi8_lo8, if_pos counted, ← head]

/-- Five bytes or more are two header bytes, some Data and two checksum bytes (R94). -/
theorem exists_body_append {b : List Byte} (h : 5 ≤ b.length) :
    ∃ unit fc data c0 c1, 1 ≤ data.length ∧ b = unit :: fc :: data ++ [c0, c1] := by
  have ends := take_append_last_two b (by omega)
  have body_length : (b.take (b.length - 2)).length = b.length - 2 := by simp
  match body : b.take (b.length - 2) with
  | [] | [_] =>
    rw [body] at body_length
    simp at body_length
    omega
  | unit :: fc :: data =>
    rw [body] at body_length ends
    simp only [List.length_cons] at body_length
    exact ⟨unit, fc, data, _, _, by omega, ends⟩

/-- The two checksum bytes are those the encoder sends for the word they make (R61). -/
theorem crcBytes_u16le (l h : Byte) : crcBytes (u16le l h) = [l, h] := by
  show [lo8 (u16be h l), hi8 (u16be h l)] = [l, h]
  rw [lo8_u16be, hi8_u16be]

/-- What the RTU decoder accepts is the ADU of the Frame it gives: the checksum it tested is the one the encoder
computes (R150). -/
theorem decodeRtu_eq_ok_iff (b : List Byte) (f : Frame) :
    decodeRtu b = .ok f ↔ f.head = .rtu (some (crc16 (rtuBody f))) ∧ 1 ≤ f.data.length ∧ b = encodeRtu f := by
  constructor
  · intro h
    by_cases short : b.length < Config.rtuMin
    · rw [decodeRtu, if_pos short] at h
      cases h
    · obtain ⟨unit, fc, data, c0, c1, nonempty, rfl⟩ := exists_body_append (Nat.le_of_not_lt short)
      rw [decodeRtu_body_append _ _ _ _ nonempty] at h
      split at h
      next checked =>
        cases h
        have sent : crcBytes (crc16 (unit :: fc :: data)) = [c0, c1] := by rw [← checked, crcBytes_u16le]
        exact ⟨congrArg (Header.rtu ∘ some) checked, nonempty, congrArg _ sent.symm⟩
      next => cases h
  · rintro ⟨head, nonempty, rfl⟩
    calc decodeRtu (encodeRtu f)
        = _ := decodeRtu_body_append f.unit f.fc (lo8 (crc16 (rtuBody f))) (hi8 (crc16 (rtuBody f))) nonempty
      _ = .ok { head := .rtu (some (crc16 (rtuBody f))), unit := f.unit, fc := f.fc, data := f.data } := by
        rw [u16le_lo8_hi8]
        exact if_pos rfl
      _ = .ok f := by rw [← head]

/-! ## Well-formed Requests and the encoder -/

theorem encodeFrame_of_head_tcp {f : Frame} {txn proto : Word} (head : f.head = .tcp txn proto)
    (fits : f.data.length ≤ Config.tcpMaxData) : encodeFrame f = some (tcpAdu txn proto f.unit f.fc f.data) := by
  obtain ⟨_, unit, fc, data⟩ := f
  cases head
  exact encodeFrame_tcp txn proto unit fc fits

theorem encodeFrame_of_head_rtu {f : Frame} {crc : Option Word} (head : f.head = .rtu crc) :
    encodeFrame f = some (encodeRtu f) := by
  rw [encodeFrame, head]

theorem wellFormed_tcp_iff (f : Frame) (c : Nat) :
    Request.wellFormed { frame := f, origin := .tcp c } = true ↔
      ∃ txn proto, f.head = .tcp txn proto ∧ f.data.length ≤ Config.tcpMaxData := by
  cases h : f.head <;> simp [Request.wellFormed, h]

theorem wellFormed_serial_iff (f : Frame) (p : Nat) :
    Request.wellFormed { frame := f, origin := .serial p } = true ↔
      f.head = .rtu (some (crc16 (rtuBody f))) ∧ 1 ≤ f.data.length := by
  cases h : f.head <;> simp [Request.wellFormed, h, and_comm]

/-- Whatever the transport, it accepts exactly the encodings of the Frames that are well formed on it. -/
theorem decodeFrame_eq_ok_iff (t : Transport) (b : List Byte) (f : Frame) :
    decodeFrame t b = .ok f ↔
      Request.wellFormed { frame := f, origin := t } = true ∧ encodeFrame f = some b := by
  cases t with
  | tcp c =>
    rw [decodeFrame, decodeTcp_eq_ok_iff, wellFormed_tcp_iff]
    constructor
    · rintro ⟨txn, proto, head, fits, rfl⟩
      exact ⟨⟨txn, proto, head, fits⟩, encodeFrame_of_head_tcp head fits⟩
    · rintro ⟨⟨txn, proto, head, fits⟩, encoded⟩
      exact ⟨txn, proto, head, fits, Option.some.inj (encoded.symm.trans (encodeFrame_of_head_tcp head fits))⟩
  | serial p =>
    rw [decodeFrame, decodeRtu_eq_ok_iff, wellFormed_serial_iff]
    constructor
    · rintro ⟨head, nonempty, rfl⟩
      exact ⟨⟨head, nonempty⟩, encodeFrame_of_head_rtu head⟩
    · rintro ⟨⟨head, nonempty⟩, encoded⟩
      exact ⟨head, nonempty, Option.some.inj (encoded.symm.trans (encodeFrame_of_head_rtu head))⟩

/-- A well-formed Request is within the encoder's domain (R145). -/
theorem encodeFrame_of_wellFormed {r : Request} (h : r.wellFormed = true) : ∃ b, encodeFrame r.frame = some b := by
  obtain ⟨f, t⟩ := r
  cases t with
  | tcp c =>
    obtain ⟨txn, proto, head, fits⟩ := (wellFormed_tcp_iff f c).1 h
    exact ⟨_, encodeFrame_of_head_tcp head fits⟩
  | serial p =>
    obtain ⟨head, -⟩ := (wellFormed_serial_iff f p).1 h
    exact ⟨_, encodeFrame_of_head_rtu head⟩

/-! ## Instructions -/

/-- Each instruction's function code selects the instruction's own row (R102 to R104). -/
theorem instrOf_toRequest (i : Instr) : instrOf i.toRequest = i := by
  cases i with
  | rdco q data => exact Laws.TableRow.rdco q data
  | rddi q data => exact Laws.TableRow.rddi q data
  | rdhr q data => exact Laws.TableRow.rdhr q data
  | rdir q data => exact Laws.TableRow.rdir q data
  | wrmc q data => exact Laws.TableRow.wrmc q data
  | wrmr q data => exact Laws.TableRow.wrmr q data
  | illegal00 q data => exact Laws.TableRow.illegal00 q data
  | illegal05 q data => exact Laws.TableRow.illegal05 q data
  | illegal06 q lo data => exact Laws.TableRow.illegal06 q lo data
  | illegal08 q lo data => exact Laws.TableRow.illegal08 q lo data
  | illegal0C q lo data => exact Laws.TableRow.illegal0C q lo data
  | illegal0E q data => exact Laws.TableRow.illegal0E q data
  | illegal11 q data => exact Laws.TableRow.illegal11 q data
  | illegal12 q lo data => exact Laws.TableRow.illegal12 q lo data
  | illegal14 q lo data => exact Laws.TableRow.illegal14 q lo data
  | illegal18 q lo data => exact Laws.TableRow.illegal18 q lo data
  | illegal20 q lo data => exact Laws.TableRow.illegal20 q lo data
  | illegal40 q lo data => exact Laws.TableRow.illegal40 q lo data
  | illegal80 q lo data => exact Laws.TableRow.illegal80 q lo data

/-- Decoding to an instruction is decoding to its Frame on its own transport (R141, R182). -/
theorem decode_eq_ok_iff_decodeFrame (t : Transport) (b : List Byte) (i : Instr) :
    decode t b = .ok i ↔ i.origin = t ∧ decodeFrame t b = .ok (frameOf i) := by
  constructor
  · intro h
    unfold decode at h
    split at h
    next f accepted =>
      cases h
      exact ⟨instrOf_origin _, by rw [accepted, frameOf, toRequest_instrOf]⟩
    next => cases h
  · rintro ⟨rfl, accepted⟩
    rw [decode, accepted]
    exact congrArg Except.ok (instrOf_toRequest i)

/-- A transport's decoder accepts exactly the encodings of its own well-formed instructions (R149, R150). -/
theorem decode_eq_ok_iff (t : Transport) (b : List Byte) (i : Instr) :
    decode t b = .ok i ↔ i.wellFormed = true ∧ i.origin = t ∧ encode i = some b := by
  rw [decode_eq_ok_iff_decodeFrame, decodeFrame_eq_ok_iff]
  constructor
  · rintro ⟨rfl, wf, encoded⟩
    exact ⟨wf, rfl, encoded⟩
  · rintro ⟨wf, rfl, encoded⟩
    exact ⟨rfl, wf, encoded⟩

/-- Settles O6: a well-formed instruction has an encoding, and `decode_eq_ok_iff` says that its transport accepts it. -/
theorem decodeAfterEncodeIsIdentity : Obligations.DecodeAfterEncodeIsIdentity := by
  intro i wf
  obtain ⟨b, encoded⟩ := encodeFrame_of_wellFormed wf
  exact ⟨b, encoded, (decode_eq_ok_iff i.origin b i).2 ⟨wf, rfl, encoded⟩⟩

/-- Settles O7: the other direction of `decode_eq_ok_iff`. -/
theorem encodeAfterDecodeIsIdentity : Obligations.EncodeAfterDecodeIsIdentity :=
  fun t b i => (decode_eq_ok_iff t b i).1

/-- Settles O8: on its domain each encoder gives an ADU that the decoder of its kind accepts. The RTU encoder does not
read the checksum the Frame carries, so the decoded Frame carries the computed one in its place (R146). -/
theorem frameRoundTrip : Obligations.FrameRoundTrip := by
  constructor
  · intro txn proto unit fc data fits
    exact ⟨_, encodeFrame_tcp txn proto unit fc fits, (decodeTcp_eq_ok_iff ..).2 ⟨txn, proto, rfl, fits, rfl⟩⟩
  · intro crc unit fc data nonempty
    exact ⟨_, { head := .rtu (some (crc16 (unit :: fc :: data))), unit := unit, fc := fc, data := data },
      encodeFrame_rtu crc unit fc data, (decodeRtu_eq_ok_iff ..).2 ⟨rfl, nonempty, rfl⟩, rfl, rfl, rfl⟩

/-! ## The payload builders -/

/-- The five bytes before the values of a write payload, in the order sent (R107, R108). -/
theorem payload4_append_eq_cons (addr count : Word) (c : Byte) (rest : List Byte) :
    payload4 addr count ++ [c] ++ rest = hi8 addr :: lo8 addr :: hi8 count :: lo8 count :: c :: rest := rfl

theorem addrOf_payload (addr count : Word) (c : Byte) (rest : List Byte) :
    addrOf (payload4 addr count ++ [c] ++ rest) = addr := by
  rw [payload4_append_eq_cons, addrOf_cons, u16be_hi8_lo8]

theorem countOf_payload (addr count : Word) (c : Byte) (rest : List Byte) :
    countOf (payload4 addr count ++ [c] ++ rest) = count.toNat := by
  rw [payload4_append_eq_cons, countOf_cons, u16be_hi8_lo8]

theorem payload_length (addr count : Word) (c : Byte) (rest : List Byte) :
    (payload4 addr count ++ [c] ++ rest).length = 5 + rest.length := by
  rw [payload4_append_eq_cons]
  simp only [List.length_cons]
  omega

/-- Behind the five bytes stand the values. -/
theorem byteAt_payload (addr count : Word) (c : Byte) (rest : List Byte) (i : Nat) :
    byteAt (payload4 addr count ++ [c] ++ rest) (5 + i) = byteAt rest i :=
  byteAt_append_length_add (payload4 addr count ++ [c]) rest i

/-- A `byteCount` that fits its byte is read back (R215). -/
theorem countByte_toNat {n : Nat} (h : n ≤ 255) : (countByte n).toNat = n := by
  rw [countByte, BitVec.toNat_ofNat, Nat.mod_eq_of_lt (by omega)]

theorem flatMap_wordBytes_length (values : List Word) : (values.flatMap wordBytes).length = 2 * values.length := by
  simp [wordBytes, List.length_flatMap, Nat.mul_comm]

/-- Each value stands in two bytes, the high one first (R60). -/
theorem u16be_byteAt_flatMap_wordBytes (values : List Word) (k : Nat) :
    u16be (byteAt (values.flatMap wordBytes) (2 * k)) (byteAt (values.flatMap wordBytes) (2 * k + 1)) =
      values.getD k 0#16 := by
  induction values generalizing k with
  | nil => simp [byteAt, u16be]
  | cons v values ih =>
    cases k with
    | zero => exact u16be_hi8_lo8 v
    | succ k => exact ih k

/-- Settles O15: the header by the lemmas on the payload's first five bytes, the values by
`u16be_byteAt_flatMap_wordBytes`; at most 127 values take at most 254 bytes. -/
theorem registerPayloadReadsBack : Obligations.RegisterPayloadReadsBack := by
  intro addr count values
  refine ⟨fun precondition => ⟨_, if_pos precondition, ?_, addrOf_payload .., countOf_payload .., ?_, fun k _ => ?_⟩,
    fun outside => if_neg outside⟩
  · rw [payload_length, flatMap_wordBytes_length, precondition.1]
  · exact countByte_toNat (by omega)
  · rw [regOperand, byteAt_payload, show 6 + 2 * k = 5 + (2 * k + 1) by omega, byteAt_payload,
      u16be_byteAt_flatMap_wordBytes]

/-- Settles O16: the header as for O15, and the packed bytes stand behind it as they were given. -/
theorem coilPayloadReadsBack : Obligations.CoilPayloadReadsBack := by
  intro addr count bytes needed fits
  have packed : bytes.length = ceil8 count.toNat := needed
  have shape : bytes.length = ceil8 count.toNat ∧ ceil8 count.toNat ≤ 255 := ⟨packed, packed ▸ fits⟩
  refine ⟨_, if_pos shape, payload_length .., addrOf_payload .., countOf_payload .., ?_, fun k _ => ?_⟩
  · rw [packed]
    exact countByte_toNat shape.2
  · rw [coilOperand, byteAt_payload]

end Sys2Proof.Machine
end

section
/-! PROOFS of the reassembler family: every step keeps the invariant (O52); what a read step does (O34 to O37), an enqueue
step (O38, O45), a read left over from shutdown (O42, O43), a step that is not enabled (O44), and whose buffer is whose
(O56). The layer of facts comes first: what reads a transport, which steps are enabled, and what one action can do to
`shutdown`, to the Server's existence, to the queue and to what the tasks hold. -/

namespace Sys2Proof.Machine

/-! ## What is read of a transport -/

theorem pendOf_serial (s : State) (p : Nat) :
    s.pendOf (.serial p) = (s.ports.map fun q => q.link.pend).getD p none := by
  simp only [State.pendOf, State.link?, List.getD_eq_getElem?_getD, List.getElem?_map]
  cases s.ports[p]? <;> rfl

theorem pendOf_tcp (s : State) (c : Nat) : s.pendOf (.tcp c) = (s.conns.map Link.pend).getD c none := by
  simp only [State.pendOf, State.link?, List.getD_eq_getElem?_getD, List.getElem?_map]
  cases s.conns[c]? <;> rfl

theorem rxbufOf_eq_getD (s : State) (p : Nat) : s.rxbufOf p = (s.ports.map Port.rxbuf).getD p [] := by
  simp only [State.rxbufOf, List.getD_eq_getElem?_getD, List.getElem?_map]
  cases s.ports[p]? <;> rfl

/-- A port replaced is the only link replaced. -/
theorem link?_setPort {s : State} {p : Nat} {q : Port} (port : s.ports[p]? = some q) (q' : Port) (u : Transport) :
    ({ s with ports := s.ports.set p q' } : State).link? u = if u = .serial p then some q'.link else s.link? u := by
  have bound : p < s.ports.length := (List.getElem?_eq_some_iff.mp port).1
  cases u with
  | tcp c => rfl
  | serial p' =>
    by_cases same : p = p'
    · subst same
      simp [State.link?, bound]
    · simp [State.link?, same, Ne.symm same]

/-- A connection replaced is the only link replaced. -/
theorem link?_setConn {s : State} {c : Nat} {l : Link} (conn : s.conns[c]? = some l) (l' : Link) (u : Transport) :
    ({ s with conns := s.conns.set c l' } : State).link? u = if u = .tcp c then some l' else s.link? u := by
  have bound : c < s.conns.length := (List.getElem?_eq_some_iff.mp conn).1
  cases u with
  | serial p => rfl
  | tcp c' =>
    by_cases same : c = c'
    · subst same
      simp [State.link?, bound]
    · simp [State.link?, same, Ne.symm same]

theorem pendOf_setPort {s : State} {p : Nat} {q : Port} (port : s.ports[p]? = some q) (q' : Port) (u : Transport) :
    ({ s with ports := s.ports.set p q' } : State).pendOf u = if u = .serial p then q'.link.pend else s.pendOf u := by
  rw [State.pendOf, link?_setPort port]
  split <;> rfl

theorem pendOf_setConn {s : State} {c : Nat} {l : Link} (conn : s.conns[c]? = some l) (l' : Link) (u : Transport) :
    ({ s with conns := s.conns.set c l' } : State).pendOf u = if u = .tcp c then l'.pend else s.pendOf u := by
  rw [State.pendOf, link?_setConn conn]
  split <;> rfl

/-- A port replaced is the only buffer replaced. -/
theorem rxbufOf_setPort {s : State} {p : Nat} {q : Port} (port : s.ports[p]? = some q) (q' : Port) (p' : Nat) :
    ({ s with ports := s.ports.set p q' } : State).rxbufOf p' = if p' = p then q'.rxbuf else s.rxbufOf p' := by
  have bound : p < s.ports.length := (List.getElem?_eq_some_iff.mp port).1
  by_cases same : p = p'
  · subst same
    simp [State.rxbufOf, bound]
  · simp [State.rxbufOf, same, Ne.symm same]

/-- Changing a link changes no buffer. -/
@[simp] theorem rxbufOf_modLink (s : State) (t : Transport) (f : Link → Link) (p : Nat) :
    (s.modLink t f).rxbufOf p = s.rxbufOf p := by
  cases t with
  | tcp c => rfl
  | serial p' =>
    rw [rxbufOf_eq_getD, rxbufOf_eq_getD]
    exact congrArg (List.getD · p [])
      (map_modify_of_eq (g := fun q => { q with link := f q.link }) (fun _ => rfl) s.ports p')

@[simp] theorem rxbufOf_enqueueRequest (r : Request) (s : State) (p : Nat) :
    (enqueueRequest r s).rxbufOf p = s.rxbufOf p := rfl

@[simp] theorem pendOf_enqueueRequest (r : Request) (s : State) (u : Transport) :
    (enqueueRequest r s).pendOf u = s.pendOf u := by
  simp [State.pendOf]

/-- `PEND[t]` emptied, and no other. -/
theorem pendOf_modLink_none (s : State) (t u : Transport) :
    (s.modLink t fun l => { l with pend := none }).pendOf u = if u = t then none else s.pendOf u := by
  simp only [State.pendOf, link?_modLink]
  split
  · cases s.link? u <;> rfl
  · rfl

/-- `PEND[t]` stays where the rest of the state is the same. -/
theorem restSame.pendOf {s t : State} (h : restSame s t) (u : Transport) : t.pendOf u = s.pendOf u := by
  obtain ⟨-, -, -, -, -, -, -, -, -, links, -⟩ := h
  have of_quiet : ∀ v : State, v.pendOf u = ((v.link? u).map Link.quiet).bind Link.pend := fun v => by
    rw [State.pendOf]
    cases v.link? u <;> rfl
  rw [of_quiet, of_quiet, links]

/-! ## What an action does to `shutdown` and to the Server -/

/-- A dispatch step waits, or leaves all but the head of `RQ`, the banks and the streams. -/
theorem dispatchStep_restSame {w : WriteAnswer} {s t : State} (h : dispatchStep w s = .next t) :
    t = s ∨ ∃ r rest, s.rq = r :: rest ∧ restSame { s with rq := rest, writeAnswer := w } t := by
  rcases dispatchStep_cases w s with waits | ⟨r, rest, adu, -, -, queue, answers⟩
  · exact .inl (Host.Outcome.next.inj (h.symm.trans waits))
  · cases answers.symm.trans h
    exact .inr ⟨r, rest, queue, restSame_transmit (handle_banksOnly ..) ..⟩

/-- A destroyed Server has no open transport (R264). -/
theorem isOpen_released (s : State) (alive : Bool) (u : Transport) :
    ({ s with
        alive := alive
        ports := s.ports.map fun q => { q with link := q.link.released }
        conns := s.conns.map Link.released } : State).isOpen u = false := by
  cases u with
  | serial p =>
    simp only [State.isOpen, State.link?, List.getElem?_map]
    cases s.ports[p]? <;> rfl
  | tcp c =>
    simp only [State.isOpen, State.link?, List.getElem?_map]
    cases s.conns[c]? <;> rfl

/-- What an action can do to `shutdown` and to the Server's existence, in the step from `s` to `t`. -/
inductive ControlStep (s t : State) : Prop where
  /-- Nothing. -/
  | kept (shutdown : t.shutdown = s.shutdown) (alive : t.alive = s.alive)
  /-- Shutdown is raised (R238). -/
  | raised (shutdown : t.shutdown = true) (alive : t.alive = s.alive)
  /-- The Server is destroyed, after shutdown (R264). -/
  | destroyed (shutdown : t.shutdown = true) (closed : ∀ u, t.isOpen u = false)

theorem perform_control {a : Action} {s t : State} (h : perform a s = .next t) : ControlStep s t := by
  cases a with
  | read u ans =>
    cases h
    rcases readStep_cases u ans s with h | ⟨p, q, -, -, -, h⟩ | ⟨c, k, -, -, -, h⟩ <;>
      exact h.symm ▸ .kept rfl rfl
  | enqueue u =>
    cases h
    rcases enqueueStep_cases u s with h | ⟨r, -, -, -, -, h⟩
    · exact h.symm ▸ .kept rfl rfl
    · exact .kept (by simp [h]) (by simp [h])
  | dispatch w =>
    rcases dispatchStep_restSame h with rfl | ⟨r, rest, -, -, shutdown, alive, -⟩
    · exact .kept rfl rfl
    · exact .kept shutdown alive
  | openSerial =>
    cases h
    unfold openSerialStep
    split <;> exact .kept rfl rfl
  | accept =>
    cases h
    unfold acceptStep
    split <;> exact .kept rfl rfl
  | peekBit | peekWord =>
    cases h
    unfold hostPeek
    split <;> exact .kept rfl rfl
  | pokeBit b k v =>
    cases h
    unfold hostPokeBit
    split <;> exact .kept (by simp) (by simp)
  | pokeWord b k v =>
    cases h
    unfold hostPokeWord
    split <;> exact .kept (by simp) (by simp)
  | raiseShutdown =>
    cases h
    unfold raiseShutdownStep
    split
    · exact .raised rfl rfl
    · exact .kept rfl rfl
  | destroy =>
    cases h
    unfold destroyStep
    split
    · rename_i enabled
      simp only [Bool.and_eq_true] at enabled
      exact .destroyed enabled.2 (isOpen_released s false)
    · exact .kept rfl rfl

/-- Nothing lowers `shutdown` (R32). -/
theorem ControlStep.shutdown {s t : State} (h : ControlStep s t) (down : s.shutdown = true) : t.shutdown = true := by
  cases h with
  | kept shutdown => exact shutdown.trans down
  | raised shutdown => exact shutdown
  | destroyed shutdown => exact shutdown

theorem step_shutdown {s t : State} (h : step s = .next t) (down : s.shutdown = true) : t.shutdown = true := by
  rcases step_cases h with ⟨-, rfl⟩ | ⟨a, rest, -, hp⟩
  · exact down
  · exact (perform_control hp).shutdown down

/-! ## What an action does to the queue -/

/-- But for an enqueue step, the queue becomes a tail of what it was. -/
theorem QueueStep.suffix_or_enqueue {a : Action} {q q' : List Request} (h : QueueStep a q q') :
    q' <:+ q ∨ ∃ u, a = .enqueue u := by
  cases h with
  | same => exact .inl List.suffix_rfl
  | gains r action => exact .inr ⟨_, action⟩
  | loses _ queue => exact .inl ⟨[_], queue.symm⟩

/-- The queue becomes a tail of what it was, or takes a pending Request while it has room (R30, R168). -/
theorem perform_queue {a : Action} {s t : State} (h : perform a s = .next t) :
    t.rq <:+ s.rq ∨ ∃ u r, s.pendOf u = some r ∧ s.rq.length < s.queueDepth ∧ t.rq = s.rq ++ [r] := by
  rcases (perform_queue_parameters h).1.suffix_or_enqueue with tail | ⟨u, rfl⟩
  · exact .inl tail
  · cases h
    rcases enqueueStep_cases u s with waits | ⟨r, -, -, room, pend, moves⟩
    · exact .inl (waits.symm ▸ List.suffix_rfl)
    · exact .inr ⟨u, r, pend, room, by simp [moves]⟩

/-! ## What an action does to `PEND[t]` and `RXBUF[p]` -/

/-- What the action `a` can do to the pending Requests and the buffers, in the step from `s` to `t`. -/
inductive Reception (a : Action) (s t : State) : Prop where
  /-- Nothing. -/
  | kept (pend : ∀ u, t.pendOf u = s.pendOf u) (rxbuf : ∀ p, t.rxbufOf p = s.rxbufOf p)
  /-- A task's pending Request leaves `PEND[u]` (R168). -/
  | enqueued (u : Transport) (pend : ∀ v, t.pendOf v = if v = u then none else s.pendOf v)
      (rxbuf : ∀ p, t.rxbufOf p = s.rxbufOf p)
  /-- A task reads (R161, R171). -/
  | read (u : Transport) (ans : ReadAnswer) (action : a = .read u ans) (result : t = readStep u ans s)

/-- An action that writes neither a port nor a connection keeps what the tasks hold. -/
theorem Reception.of_transports {a : Action} {s t : State} (ports : t.ports = s.ports) (conns : t.conns = s.conns) :
    Reception a s t := by
  refine .kept (fun u => ?_) fun p => by rw [rxbufOf_eq_getD, rxbufOf_eq_getD, ports]
  cases u with
  | serial p => rw [pendOf_serial, pendOf_serial, ports]
  | tcp c => rw [pendOf_tcp, pendOf_tcp, conns]

/-- So does one that changes links and keeps `PEND[t]` in each. -/
theorem Reception.of_map_link {a : Action} {s t : State} {f : Link → Link} (keeps : ∀ l, (f l).pend = l.pend)
    (ports : t.ports = s.ports.map fun q => { q with link := f q.link }) (conns : t.conns = s.conns.map f) :
    Reception a s t := by
  refine .kept (fun u => ?_) fun p => by simp [rxbufOf_eq_getD, ports, Function.comp_def]
  cases u with
  | serial p => simp [pendOf_serial, ports, keeps, Function.comp_def]
  | tcp c => simp [pendOf_tcp, conns, keeps, Function.comp_def]

theorem perform_reception {a : Action} {s t : State} (h : perform a s = .next t) : Reception a s t := by
  cases a with
  | read u ans =>
    cases h
    exact .read u ans rfl rfl
  | enqueue u =>
    cases h
    rcases enqueueStep_cases u s with waits | ⟨r, -, -, -, -, moves⟩
    · exact .of_transports (by rw [waits]) (by rw [waits])
    · exact .enqueued u (by simp [moves, pendOf_modLink_none]) (by simp [moves])
  | dispatch w =>
    rcases dispatchStep_restSame h with rfl | ⟨r, rest, -, same⟩
    · exact .of_transports rfl rfl
    · have pend := same.pendOf
      obtain ⟨-, -, -, -, -, -, -, -, -, -, rxbuf⟩ := same
      exact .kept (fun u => (pend u).trans (by cases u <;> rfl)) rxbuf
  | openSerial =>
    cases h
    unfold openSerialStep
    split
    · refine .kept (fun u => ?_) fun p => ?_
      · cases u with
        | serial p =>
          rw [pendOf_serial, pendOf_serial, List.map_append]
          exact getD_concat_default ..
        | tcp c => rfl
      · rw [rxbufOf_eq_getD, rxbufOf_eq_getD, List.map_append]
        exact getD_concat_default ..
    · exact .of_transports rfl rfl
  | accept =>
    cases h
    unfold acceptStep
    split
    · refine .kept (fun u => ?_) fun p => rfl
      cases u with
      | serial p => rfl
      | tcp c =>
        rw [pendOf_tcp, pendOf_tcp, List.map_append]
        exact getD_concat_default ..
    · exact .of_transports rfl rfl
  | peekBit | peekWord =>
    cases h
    unfold hostPeek
    split <;> exact .of_transports rfl rfl
  | pokeBit b k v =>
    cases h
    unfold hostPokeBit
    split <;> exact .of_transports (by simp) (by simp)
  | pokeWord b k v =>
    cases h
    unfold hostPokeWord
    split <;> exact .of_transports (by simp) (by simp)
  | raiseShutdown =>
    cases h
    unfold raiseShutdownStep
    split
    · exact .of_map_link atShutdown_pend rfl rfl
    · exact .of_transports rfl rfl
  | destroy =>
    cases h
    unfold destroyStep
    split
    · exact .of_map_link released_pend rfl rfl
    · exact .of_transports rfl rfl

/-! ## What a read step makes of `PEND[t]` and `RXBUF[p]` -/

/-- What a decoder accepted is a well-formed Request of its transport (R199). -/
theorem pendOk_of_decodeFrame {t : Transport} {b : List Byte} {f : Frame} (accepted : decodeFrame t b = .ok f) :
    pendOk t (some { frame := f, origin := t }) := by
  rintro r ⟨⟩
  exact ⟨rfl, ((decodeFrame_eq_ok_iff t b f).1 accepted).1⟩

/-- A read step puts into `PEND[v]` nothing but a well-formed Request of `v`. -/
theorem readStep_pendOk (u v : Transport) (a : ReadAnswer) {s : State} (h : pendOk v (s.pendOf v)) :
    pendOk v ((readStep u a s).pendOf v) := by
  rcases readStep_cases u a s with waits | ⟨p, q, -, port, -, reads⟩ | ⟨c, l, -, conn, -, reads⟩
  · exact waits.symm ▸ h
  · rw [reads, pendOf_setPort port]
    split
    next this =>
      subst this
      have before : s.pendOf (.serial p) = q.link.pend := by simp [State.pendOf, State.link?, port]
      rcases serialRead_cases p a q with ⟨same, -⟩ | ⟨b, f, accepted, -, pend⟩
      · rwa [same, ← before]
      · rw [pend]
        exact pendOk_of_decodeFrame (t := .serial p) accepted
    next => exact h
  · rw [reads, pendOf_setConn conn]
    split
    next this =>
      subst this
      have before : s.pendOf (.tcp c) = l.pend := by simp [State.pendOf, State.link?, conn]
      obtain ⟨-, -, -, same | ⟨b, f, accepted, pend⟩⟩ := tcpRead_cases c a l
      · rwa [same, ← before]
      · rw [pend]
        exact pendOk_of_decodeFrame (t := .tcp c) accepted
    next => exact h

/-- A read step leaves a buffer as it was, or is its own reader's and leaves at most 4 bytes (R160, R167). -/
theorem readStep_rxbufOf (u : Transport) (a : ReadAnswer) (s : State) (p : Nat) :
    (readStep u a s).rxbufOf p = s.rxbufOf p ∨ u = .serial p ∧ ((readStep u a s).rxbufOf p).length ≤ 4 := by
  rcases readStep_cases u a s with waits | ⟨p', q, reader, port, -, reads⟩ | ⟨c, l, -, -, -, reads⟩
  · exact .inl (by rw [waits])
  · rw [reads, rxbufOf_setPort port]
    split
    next this =>
      subst this
      have before : s.rxbufOf p = q.rxbuf := by simp [State.rxbufOf, port]
      rcases serialRead_cases p a q with ⟨-, same | short⟩ | ⟨b, f, -, empty, -⟩
      · exact .inl (same.trans before.symm)
      · exact .inr ⟨reader, short⟩
      · exact .inr ⟨reader, by simp [empty]⟩
    next => exact .inl rfl
  · exact .inl (by rw [reads]; rfl)

/-- The pending Requests stay such as a decoder accepts, each from its own transport (R42, R199). -/
theorem Reception.pendOk {a : Action} {s t : State} (h : Reception a s t) {u : Transport}
    (before : Machine.pendOk u (s.pendOf u)) : Machine.pendOk u (t.pendOf u) := by
  cases h with
  | kept pend => exact (pend u).symm ▸ before
  | enqueued v pend =>
    rw [pend]
    split
    · exact nofun
    · exact before
  | read v ans _ result => exact result ▸ readStep_pendOk v u ans before

/-- A buffer stays as it was, or its own reader leaves at most 4 bytes in it. -/
theorem Reception.rxbufOf {a : Action} {s t : State} (h : Reception a s t) (p : Nat) :
    t.rxbufOf p = s.rxbufOf p ∨ (∃ ans, a = .read (.serial p) ans) ∧ (t.rxbufOf p).length ≤ 4 := by
  cases h with
  | kept _ rxbuf => exact .inl (rxbuf p)
  | enqueued _ _ rxbuf => exact .inl (rxbuf p)
  | read u ans action result =>
    subst action result
    rcases readStep_rxbufOf u ans s p with same | ⟨rfl, short⟩
    · exact .inl same
    · exact .inr ⟨⟨ans, rfl⟩, short⟩

/-! ## The invariant -/

/-- A handler keeps the banks in canonical form. -/
theorem handle_wf (i : Instr) {s : State} (h : Memory.wf s = true) : Memory.wf (handle i s).2 = true := by
  cases i with
  | rdco | rddi => simpa [handle, handleReadBits_state] using h
  | rdhr | rdir => simpa [handle, handleReadRegs_state] using h
  | wrmc q data =>
    simp only [handle, handleWriteCoils]
    split
    · exact h
    · exact writeBitRun_wf h ..
  | wrmr q data =>
    simp only [handle, handleWriteRegs]
    split
    · exact h
    · exact writeWordRun_wf h ..
  | _ => exact h

/-- The canonical form is a property of the banks that are observed. -/
theorem memory_wf_of_observe {s t : State} {serial tcp : List (List (List Byte))}
    (same : observe t = { observe s with serial := serial, tcp := tcp })
    (h : Memory.wf s = true) : Memory.wf t = true := by
  have co : t.co = s.co := congrArg Observation.co same
  have di : t.di = s.di := congrArg Observation.di same
  have hr : t.hr = s.hr := congrArg Observation.hr same
  have ir : t.ir = s.ir := congrArg Observation.ir same
  rwa [Memory.wf, co, di, hr, ir]

/-- Whatever an action does, the banks stay in canonical form (R20 to R23). -/
theorem Effect.memory_wf {a : Action} {s t : State} (effect : Effect a s t) (h : Memory.wf s = true) :
    Memory.wf t = true := by
  cases effect with
  | none same => exact memory_wf_of_observe same h
  | opened _ gains => exact memory_wf_of_observe gains h
  | accepted _ gains => exact memory_wf_of_observe gains h
  | pokedBit b k v _ written => exact written ▸ bankWriteBit_wf h b k v
  | pokedWord b k v _ written => exact written ▸ bankWriteWord_wf h b k v
  | dispatched w r rest adu _ _ sent =>
    have handled : Memory.wf (handle (instrOf r) { s with rq := rest, writeAnswer := w }).2 = true := handle_wf _ h
    simpa [sent, Memory.wf] using handled

/-- Sending opens no port. -/
@[simp] theorem transmit_ports_length (t : Transport) (adu : List Byte) (s : State) :
    (transmit t adu s).ports.length = s.ports.length := by
  unfold transmit
  split
  · cases t <;> simp [State.modLink]
  · rfl

/-- Ports are opened one at a time, while fewer than `N_SERIAL` are open (R28). -/
theorem perform_ports_length {a : Action} {s t : State} (h : perform a s = .next t)
    (bound : s.ports.length ≤ s.nSerial) : t.ports.length ≤ s.nSerial := by
  have counted : ∀ v : State, v.ports.length = (observe v).serial.length := fun v => by simp [observe]
  cases perform_effect h with
  | none same => rwa [counted, same, ← counted]
  | opened action =>
    subst action
    cases h
    unfold openSerialStep
    split
    · rename_i enabled
      simp only [canOpenSerial, Bool.and_eq_true, decide_eq_true_eq] at enabled
      simpa using enabled.2
    · exact bound
  | accepted _ gains => rwa [counted, gains, ← counted]
  | pokedBit b k v _ written => simpa [written] using bound
  | pokedWord b k v _ written => simpa [written] using bound
  | dispatched w r rest adu _ _ sent =>
    obtain ⟨co, di, hr, ir, handled⟩ := handle_banksOnly (instrOf r) { s with rq := rest, writeAnswer := w }
    rw [sent, transmit_ports_length, handled]
    exact bound

/-- An action opens no link that was closed. -/
theorem LinkStep.isOpen {s s' : State} {l l' : Link} (h : LinkStep s s' l l') (after : l'.isOpen = true) :
    l.isOpen = true := by
  cases h with
  | read _ _ _ isOpen => exact isOpen after
  | released => cases after
  | same | sent | enqueued | stopped => exact after

/-- A read left over from shutdown stays one of an open transport with nothing pending (R168, R170). -/
theorem LinkStep.inRead {s s' : State} {l l' : Link} (h : LinkStep s s' l l')
    (before : l.inRead = true → s.shutdown = true ∧ l.isOpen = true ∧ l.pend = none) (late : l'.inRead = true) :
    (s.shutdown = true ∨ s'.shutdown = true) ∧ l'.isOpen = true ∧ l'.pend = none := by
  cases h with
  | same | sent =>
    obtain ⟨down, isOpen, pend⟩ := before late
    exact ⟨.inl down, isOpen, pend⟩
  | enqueued =>
    obtain ⟨down, isOpen, -⟩ := before late
    exact ⟨.inl down, isOpen, rfl⟩
  | read _ _ done => exact absurd (done.symm.trans late) nofun
  | stopped _ after => exact ⟨.inr after, by simpa using late⟩
  | released => cases late

/-- After shutdown a transport that is closed or does not exist stays closed (R242). -/
theorem perform_closed {a : Action} {s t : State} (h : perform a s = .next t) (down : s.shutdown = true)
    {u : Transport} (closed : s.isOpen u = false) : t.isOpen u = false := by
  cases link : s.link? u with
  | none =>
    rcases perform_link?_none h link with absent | ⟨up, -⟩
    · simp [State.isOpen, absent]
    · exact absurd (up.symm.trans down) nofun
  | some l =>
    obtain ⟨l', link', moved⟩ := perform_link? h link
    have shut : ¬ l.isOpen = true := by simpa [State.isOpen, link] using closed
    simpa [State.isOpen, link'] using fun after => shut (moved.isOpen after)

/-- The clause of the invariant on reads left over from shutdown. -/
theorem perform_reads {a : Action} {s t : State} (h : perform a s = .next t) {u : Transport}
    (before : s.inReadOf u = true → s.shutdown = true ∧ s.isOpen u = true ∧ s.pendOf u = none)
    (late : t.inReadOf u = true) : t.shutdown = true ∧ t.isOpen u = true ∧ t.pendOf u = none := by
  cases link : s.link? u with
  | none =>
    rcases perform_link?_none h link with absent | ⟨-, fresh⟩
    · simp [State.inReadOf, absent] at late
    · simp [State.inReadOf, fresh, Link.fresh] at late
  | some l =>
    obtain ⟨l', link', moved⟩ := perform_link? h link
    simp only [State.inReadOf, State.isOpen, State.pendOf, link, link', Option.any_some, Option.bind_some]
      at before late ⊢
    obtain ⟨down, rest⟩ := moved.inRead before late
    exact ⟨down.elim (perform_control h).shutdown id, rest⟩

/-- The clause of the invariant on a destroyed Server. -/
theorem perform_destroyed {a : Action} {s t : State} (h : perform a s = .next t)
    (before : s.alive = false → s.shutdown = true ∧ ∀ u, s.isOpen u = false) (gone : t.alive = false) :
    t.shutdown = true ∧ ∀ u, t.isOpen u = false := by
  have control := perform_control h
  have stays (alive : t.alive = s.alive) : t.shutdown = true ∧ ∀ u, t.isOpen u = false := by
    obtain ⟨down, closed⟩ := before (alive.symm.trans gone)
    exact ⟨control.shutdown down, fun u => perform_closed h down (closed u)⟩
  cases control with
  | kept _ alive | raised _ alive => exact stays alive
  | destroyed shutdown closed => exact ⟨shutdown, closed⟩

/-- The invariant says nothing of the agenda. -/
theorem Inv.withAgenda {s : State} (h : Inv s) (l : List Action) : Inv { s with agenda := l } where
  memory := h.memory
  buffers := h.buffers
  queue := h.queue
  queued := h.queued
  pending u := by simpa using h.pending u
  reads u := by simpa using h.reads u
  ports := h.ports
  parameters := h.parameters
  destroyed := by simpa using h.destroyed

/-- Every action keeps the invariant, clause by clause. -/
theorem perform_inv {a : Action} {s t : State} (inv : Inv s) (h : perform a s = .next t) : Inv t where
  memory := (perform_effect h).memory_wf inv.memory
  buffers p := by
    rcases (perform_reception h).rxbufOf p with same | ⟨-, short⟩
    · exact same ▸ inv.buffers p
    · exact short
  queue := by
    rw [(perform_queue_parameters h).2.2.1]
    rcases perform_queue h with tail | ⟨u, r, -, room, gains⟩
    · exact tail.length_le.trans inv.queue
    · simpa [gains] using room
  queued := by
    rcases perform_queue h with tail | ⟨u, r, pend, -, gains⟩
    · exact fun r member => inv.queued r (tail.subset member)
    · have accepted : r.wellFormed = true := (inv.pending u r pend).2
      simpa [gains, or_imp, forall_and, accepted] using inv.queued
  pending u := (perform_reception h).pendOk (inv.pending u)
  reads u := perform_reads h (inv.reads u)
  ports := by
    rw [(perform_queue_parameters h).2.2.2]
    exact perform_ports_length h inv.ports
  parameters := by
    obtain ⟨readMax, queueDepth, -⟩ := (perform_queue_parameters h).2
    rw [readMax, queueDepth]
    exact inv.parameters
  destroyed := perform_destroyed h inv.destroyed

/-- Settles O52: a step waits, or performs an action, which keeps every clause. -/
theorem stepKeepsInvariant : Obligations.StepKeepsInvariant := by
  intro s t inv h
  rcases step_cases h with ⟨-, rfl⟩ | ⟨a, rest, -, hp⟩
  · exact inv
  · exact perform_inv (inv.withAgenda rest) hp

/-! ## Buffers and pending Requests, step by step -/

/-- Settles O56: a step waits, or performs an action, and only a read step of `SR[p]` can change `RXBUF[p]`. -/
theorem bufferBelongsToItsReader : Obligations.BufferBelongsToItsReader := by
  intro s t p h
  rcases step_cases h with ⟨-, rfl⟩ | ⟨a, rest, hcons, hp⟩
  · exact .inl rfl
  · rcases (perform_reception hp).rxbufOf p with same | ⟨⟨ans, rfl⟩, -⟩
    · exact .inl same
    · exact .inr ⟨ans, by rw [hcons]; rfl⟩

/-- Settles O45: of what a step can do to a link, a read is not enabled while a Request is pending, and an enqueue step
puts that Request at the tail of `RQ`. -/
theorem pendingRequestIsNeverDropped : Obligations.PendingRequestIsNeverDropped := by
  intro s t u r pend h
  obtain ⟨l, link, waiting⟩ : ∃ l, s.link? u = some l ∧ l.pend = some r := Option.bind_eq_some_iff.mp pend
  obtain ⟨l', link', moved⟩ := step_link? h link
  simp only [State.pendOf, link', Option.bind_some]
  cases moved with
  | same | sent | stopped | released => exact .inl waiting
  | read enabled => simp [canRead, waiting] at enabled
  | enqueued taken rq =>
    cases waiting.symm.trans taken
    exact .inr ⟨rfl, rq⟩

/-! ## Steps that are not enabled -/

/-- When a read step is enabled (R161, R168, R170, R171). -/
theorem read_enabled_iff (t : Transport) (a : ReadAnswer) (s : State) :
    (Action.read t a).enabled s = true ↔
      s.alive = true ∧ s.isOpen t = true ∧ s.pendOf t = none ∧ (s.shutdown = false ∨ s.inReadOf t = true) ∧
        a.possible s.readMax = true := by
  simp only [Action.enabled, State.isOpen, State.pendOf, State.inReadOf]
  cases s.link? t <;> simp [canRead, and_assoc]

/-- An action that is not enabled changes nothing (log 3). -/
theorem perform_of_not_enabled {a : Action} {s : State} (h : a.enabled s = false) : perform a s = .next s := by
  cases a with
  | read t ans =>
    rcases readStep_cases t ans s with waits | ⟨p, q, rfl, port, enabled, reads⟩ | ⟨c, l, rfl, conn, enabled, reads⟩
    · exact congrArg Host.Outcome.next waits
    · have impossible : ans.possible s.readMax = false := by
        simpa [Action.enabled, State.link?, port, enabled] using h
      simp [perform, readStep, port, impossible]
    · have impossible : ans.possible s.readMax = false := by
        simpa [Action.enabled, State.link?, conn, enabled] using h
      simp [perform, readStep, conn, impossible]
  | enqueue t => exact congrArg Host.Outcome.next (enqueueStep_waits h)
  | dispatch w => exact dispatchStep_waits h
  | openSerial => exact congrArg Host.Outcome.next (openSerialStep_waits h)
  | accept | peekBit | peekWord | pokeBit | pokeWord | raiseShutdown | destroy =>
    exact congrArg Host.Outcome.next (if_neg (Bool.eq_false_iff.mp h))

@[simp] theorem enabled_withAgenda (a : Action) (s : State) (l : List Action) :
    a.enabled { s with agenda := l } = a.enabled s := by
  cases a with
  | read t ans => cases t <;> rfl
  | enqueue t => cases t <;> rfl
  | _ => rfl

/-- A step whose action is not enabled takes it from the agenda and changes nothing else. -/
theorem step_of_not_enabled {a : Action} {s : State} (h : a.enabled s = false) (rest : List Action) :
    step { s with agenda := a :: rest } = .next { s with agenda := rest } := by
  rw [step_of_agenda_cons rfl]
  exact perform_of_not_enabled (by simpa using h)

/-- Settles O44: in each case the action is not enabled. -/
theorem disabledStepChangesNothing : Obligations.DisabledStepChangesNothing := by
  intro s rest
  refine ⟨fun t a disabled => ?_, fun t disabled => ?_, fun w disabled => ?_, fun disabled => ?_, fun disabled => ?_⟩ <;>
    refine step_of_not_enabled ?_ rest
  · rw [Bool.eq_false_iff, Ne, read_enabled_iff]
    rintro ⟨alive, isOpen, pend, late, possible⟩
    rcases disabled with gone | closed | waiting | ⟨down, done⟩ | ⟨rd, rfl, long⟩
    · exact absurd (gone.symm.trans alive) nofun
    · exact absurd (closed.symm.trans isOpen) nofun
    · exact waiting pend
    · simp [down, done] at late
    · exact absurd (of_decide_eq_true possible) (Nat.not_le_of_lt long)
  · rcases disabled with gone | closed | idle | full
    · simp [Action.enabled, canEnqueue, gone]
    · simp [Action.enabled, canEnqueue, closed]
    · simp [Action.enabled, canEnqueue, idle]
    · simp [Action.enabled, canEnqueue, full]
  · rcases disabled with gone | down | empty
    · simp [Action.enabled, canDispatch, gone]
    · simp [Action.enabled, canDispatch, down]
    · simp [Action.enabled, canDispatch, empty]
  · rcases disabled with gone | down | all
    · simp [Action.enabled, canOpenSerial, gone]
    · simp [Action.enabled, canOpenSerial, down]
    · simp [Action.enabled, canOpenSerial, all]
  · rcases disabled with gone | down
    · simp [Action.enabled, gone]
    · simp [Action.enabled, down]

/-! ## Reads after shutdown -/

/-- With shutdown raised and no read in progress, a read step is not enabled (R170). -/
theorem step_read_of_finished {s : State} {t : Transport} (down : s.shutdown = true) (done : s.inReadOf t = false)
    (a : ReadAnswer) (rest : List Action) :
    step { s with agenda := .read t a :: rest } = .next { s with agenda := rest } := by
  refine step_of_not_enabled ?_ rest
  rw [Bool.eq_false_iff, Ne, read_enabled_iff]
  rintro ⟨-, -, -, up | late, -⟩
  · exact absurd (up.symm.trans down) nofun
  · exact absurd (done.symm.trans late) nofun

/-- A finished reader stays so on its link: only raising shutdown puts a read in progress. -/
theorem LinkStep.finished {s s' : State} {l l' : Link} (h : LinkStep s s' l l') (down : s.shutdown = true)
    (done : l.inRead = false) : l'.inRead = false := by
  cases h with
  | same | sent | enqueued => exact done
  | read _ _ inRead => exact inRead
  | stopped up => exact absurd (up.symm.trans down) nofun
  | released => rfl

/-- After shutdown no step puts a read in progress. -/
theorem step_finished {s u : State} (h : step s = .next u) (down : s.shutdown = true) {t : Transport}
    (done : s.inReadOf t = false) : u.shutdown = true ∧ u.inReadOf t = false := by
  refine ⟨step_shutdown h down, ?_⟩
  cases link : s.link? t with
  | none =>
    rcases step_link?_none h link with absent | ⟨up, -⟩
    · simp [State.inReadOf, absent]
    · exact absurd (up.symm.trans down) nofun
  | some l =>
    obtain ⟨l', link', moved⟩ := step_link? h link
    simp only [State.inReadOf, link, link', Option.any_some] at done ⊢
    exact moved.finished down done

/-- The same of any number of steps. -/
theorem run_finished {n : Nat} {s u : State} (h : run n s = .next u) (down : s.shutdown = true) {t : Transport}
    (done : s.inReadOf t = false) : u.shutdown = true ∧ u.inReadOf t = false := by
  induction n generalizing s with
  | zero =>
    cases h
    exact ⟨down, done⟩
  | succ n ih =>
    obtain ⟨v, first, others⟩ := run_succ_cases h
    obtain ⟨down', done'⟩ := step_finished first down done
    exact ih others down' done'

/-- Settles O43: the read step is not enabled, and no step puts a read in progress. -/
theorem finishedReaderStaysFinished : Obligations.FinishedReaderStaysFinished :=
  fun _ _ down done => ⟨step_read_of_finished down done, fun _ h => step_finished h down done⟩

/-! ## What an enabled read step does -/

theorem readStep_serial {s : State} {p : Nat} {q : Port} {a : ReadAnswer} (port : s.ports[p]? = some q)
    (enabled : canRead s q.link = true) (possible : a.possible s.readMax = true) :
    readStep (.serial p) a s = { s with ports := s.ports.set p (serialRead p a q) } := by
  simp [readStep, port, enabled, possible]

theorem readStep_tcp {s : State} {c : Nat} {l : Link} {a : ReadAnswer} (conn : s.conns[c]? = some l)
    (enabled : canRead s l = true) (possible : a.possible s.readMax = true) :
    readStep (.tcp c) a s = { s with conns := s.conns.set c (tcpRead c a l) } := by
  simp [readStep, conn, enabled, possible]

/-- An enabled read step leaves no read in progress. -/
theorem readStep_inReadOf {t : Transport} {a : ReadAnswer} {s : State} (h : (Action.read t a).enabled s = true) :
    (readStep t a s).inReadOf t = false := by
  simp only [Action.enabled, Bool.and_eq_true, Option.any_eq_true] at h
  obtain ⟨⟨l, link, enabled⟩, possible⟩ := h
  cases t with
  | serial p =>
    obtain ⟨q, port, rfl⟩ := Option.map_eq_some_iff.mp link
    rw [readStep_serial port enabled possible, State.inReadOf, link?_setPort port, if_pos rfl]
    exact (serialRead_link p a q).2.2
  | tcp c =>
    rw [readStep_tcp link enabled possible, State.inReadOf, link?_setConn link, if_pos rfl]
    exact (tcpRead_cases c a l).2.1

/-- Settles O42: the first read step leaves no read in progress, and then O43's lemmas say the rest. A read in progress was
enabled with every possible answer, because by the invariant its transport is open with nothing pending (R168, R170). -/
theorem oneLateReadAtMost : Obligations.OneLateReadAtMost := by
  intro n s u v t a b rest rest' inv down possible first others
  have finished : u.shutdown = true ∧ u.inReadOf t = false := by
    cases late : s.inReadOf t with
    | false => exact step_finished first down (by simpa using late)
    | true =>
      obtain ⟨-, isOpen, pend⟩ := inv.reads t late
      have alive : s.alive = true := by
        by_contra gone
        have closed := (inv.destroyed (Bool.eq_false_iff.mpr gone)).2 t
        exact absurd (closed.symm.trans isOpen) nofun
      refine ⟨step_shutdown first down, ?_⟩
      cases first
      apply readStep_inReadOf
      rw [enabled_withAgenda, read_enabled_iff]
      exact ⟨alive, isOpen, pend, .inr late, possible⟩
  obtain ⟨down', done⟩ := run_finished others finished.1 finished.2
  exact step_read_of_finished down' done b rest'

/-- Before shutdown the task of an open transport with nothing pending may read (R161, R168, R171). -/
theorem canRead_of_idle {s : State} {l : Link} (alive : s.alive = true) (up : s.shutdown = false)
    (isOpen : l.isOpen = true) (pend : l.pend = none) : canRead s l = true := by
  simp [canRead, alive, up, isOpen, pend]

/-- Where no read was left over from shutdown, a read returning leaves the link as it is. -/
theorem readDone_of_not_inRead {l : Link} (h : l.inRead = false) : l.readDone = l := by
  obtain ⟨isOpen, inRead, pend, tx⟩ := l
  cases h
  rfl

/-- A list with an element put in its own place is the same list. -/
theorem set_of_getElem? {α : Type} {l : List α} {i : Nat} {x : α} (h : l[i]? = some x) : l.set i x = l := by
  obtain ⟨bound, rfl⟩ := List.getElem?_eq_some_iff.mp h
  exact List.set_getElem_self bound

/-! ## The reassembly loop -/

/-- Fewer than 5 bytes do not decode (R144). -/
theorem decodeRtu_of_short {b : List Byte} (short : b.length < Config.rtuMin) : decodeRtu b = .error .malformedFrame :=
  if_pos short

/-- The loop gives the Frame of the longest suffix that decodes, and empties the buffer (R164, R165). -/
theorem reassemble_of_first_ok {b : List Byte} {k : Nat} {f : Frame}
    (before : ∀ j, j < k → ∃ e, decodeRtu (b.drop j) = .error e) (accepted : decodeRtu (b.drop k) = .ok f) :
    reassemble b = (some f, []) := by
  induction b generalizing k with
  | nil =>
    rw [List.drop_nil, decodeRtu_of_short (by decide)] at accepted
    cases accepted
  | cons x xs ih =>
    have long : ¬ (x :: xs).length < Config.rtuMin := fun short => by
      rw [decodeRtu_of_short (by rw [List.length_drop]; omega)] at accepted
      cases accepted
    rw [reassemble, if_neg long]
    cases k with
    | zero => rw [show decodeRtu (x :: xs) = .ok f from accepted]
    | succ k =>
      obtain ⟨e, rejected⟩ := before 0 k.succ_pos
      rw [show decodeRtu (x :: xs) = .error e from rejected]
      exact ih (fun j hj => before (j + 1) (Nat.succ_lt_succ hj)) accepted

/-- When no suffix decodes, the loop keeps the last 4 bytes, or all if fewer (R164, R166). -/
theorem reassemble_of_all_error {b : List Byte} (rejected : ∀ k, ∃ e, decodeRtu (b.drop k) = .error e) :
    reassemble b = (none, b.drop (b.length - 4)) := by
  induction b with
  | nil => rfl
  | cons x xs ih =>
    rw [reassemble]
    split
    next short =>
      have all : (x :: xs).length - 4 = 0 := Nat.sub_eq_zero_of_le (Nat.le_of_lt_succ short)
      rw [all, List.drop_zero]
    next long =>
      obtain ⟨e, failed⟩ := rejected 0
      have dropped : (x :: xs).length - 4 = xs.length - 4 + 1 := by
        simp only [Config.rtuMin, List.length_cons] at long ⊢
        omega
      rw [show decodeRtu (x :: xs) = .error e from failed, dropped, List.drop_succ_cons]
      exact ih fun k => rejected (k + 1)

/-! ## The serial reader -/

/-- A read after which the loop gives a Frame (R163, R164). -/
theorem serialRead_of_found {q : Port} {rd rest : List Byte} {f : Frame} (idle : q.link.inRead = false)
    (nonempty : rd ≠ []) (found : reassemble (q.rxbuf ++ rd) = (some f, rest)) (p : Nat) :
    serialRead p (.bytes rd) q = { link := q.link.pending { frame := f, origin := .serial p }, rxbuf := rest } := by
  cases rd with
  | nil => exact absurd rfl nonempty
  | cons x xs => simp only [serialRead, readDone_of_not_inRead idle, found]

/-- A read after which the loop gives none (R166). -/
theorem serialRead_of_not_found {q : Port} {rd rest : List Byte} (idle : q.link.inRead = false) (nonempty : rd ≠ [])
    (none : reassemble (q.rxbuf ++ rd) = (none, rest)) (p : Nat) :
    serialRead p (.bytes rd) q = { q with rxbuf := rest } := by
  cases rd with
  | nil => exact absurd rfl nonempty
  | cons x xs => simp only [serialRead, readDone_of_not_inRead idle, none]

/-- A read of no bytes or with an error leaves the port as it is (R162, R169). -/
theorem serialRead_nothing {a : ReadAnswer} (nothing : a = .bytes [] ∨ a = .error) {q : Port}
    (idle : q.link.inRead = false) (p : Nat) : serialRead p a q = q := by
  rcases nothing with rfl | rfl <;> simp only [serialRead, readDone_of_not_inRead idle]

/-- Settles O35: the read step is enabled, and what the loop gives is what the port keeps. -/
theorem serialReadStepResult : Obligations.SerialReadStepResult := by
  intro s p q rd rest alive up port isOpen idle pend nonempty possible
  have reads : step { s with agenda := .read (.serial p) (.bytes rd) :: rest } =
      .next { s with agenda := rest, ports := s.ports.set p (serialRead p (.bytes rd) q) } :=
    congrArg Host.Outcome.next (readStep_serial (s := { s with agenda := rest }) port
      (canRead_of_idle alive up isOpen pend) (decide_eq_true possible))
  constructor
  · intro k f before accepted
    rw [reads, serialRead_of_found idle nonempty (reassemble_of_first_ok before accepted)]
    rfl
  · intro rejected
    rw [reads, serialRead_of_not_found idle nonempty (reassemble_of_all_error rejected)]

/-- Settles O36: a read step waits, or replaces the port by itself. -/
theorem serialTimeoutAndErrorChangeNothing : Obligations.SerialTimeoutAndErrorChangeNothing := by
  intro s p a rest up idle nothing
  refine congrArg Host.Outcome.next ?_
  rcases readStep_cases (.serial p) a { s with agenda := rest } with
    waits | ⟨p', q, -, port, -, reads⟩ | ⟨c, l, isTcp, -⟩
  · exact waits
  · have same : serialRead p' a q = q := serialRead_nothing nothing (idle q (List.mem_of_getElem? port)) p'
    rw [reads, same, set_of_getElem? port]
  · cases isTcp

/-! ## The TCP task -/

/-- A TCP task's step on an idle open connection replaces the connection by what its read gives. -/
theorem step_tcpRead {s : State} {c : Nat} {l : Link} {a : ReadAnswer} (alive : s.alive = true) (up : s.shutdown = false)
    (conn : s.conns[c]? = some l) (isOpen : l.isOpen = true) (pend : l.pend = none)
    (possible : a.possible s.readMax = true) (rest : List Action) :
    step { s with agenda := .read (.tcp c) a :: rest } =
      .next { s with agenda := rest, conns := s.conns.set c (tcpRead c a l) } :=
  congrArg Host.Outcome.next (readStep_tcp (s := { s with agenda := rest }) conn
    (canRead_of_idle alive up isOpen pend) possible)

/-- A TCP read of an ADU (R171). -/
theorem tcpRead_ok {l : Link} {rd : List Byte} {f : Frame} (idle : l.inRead = false) (accepted : decodeTcp rd = .ok f)
    (c : Nat) : tcpRead c (.bytes rd) l = l.pending { frame := f, origin := .tcp c } := by
  cases rd with
  | nil => cases accepted
  | cons x xs => simp only [tcpRead, accepted, readDone_of_not_inRead idle]

/-- A TCP read of other bytes (R172). -/
theorem tcpRead_failed {l : Link} {rd : List Byte} {e : DecodeError} (idle : l.inRead = false) (nonempty : rd ≠ [])
    (rejected : decodeTcp rd = .error e) (c : Nat) : tcpRead c (.bytes rd) l = { l with isOpen := false } := by
  cases rd with
  | nil => exact absurd rfl nonempty
  | cons x xs => simp only [tcpRead, rejected, readDone_of_not_inRead idle]

/-- Settles O37: the read step is enabled with each of the answers. -/
theorem tcpReadStepResult : Obligations.TcpReadStepResult := by
  intro s c l rest alive up conn isOpen idle pend
  have reads : ∀ a : ReadAnswer, a.possible s.readMax = true →
      step { s with agenda := .read (.tcp c) a :: rest } =
        .next { s with agenda := rest, conns := s.conns.set c (tcpRead c a l) } :=
    fun a possible => step_tcpRead alive up conn isOpen pend possible rest
  refine ⟨?_, ?_, fun rd nonempty possible => ⟨fun f accepted => ?_, fun e rejected => ?_⟩⟩
  · rw [reads .error rfl, tcpRead, readDone_of_not_inRead idle]
  · rw [reads (.bytes []) rfl, tcpRead, readDone_of_not_inRead idle, set_of_getElem? conn]
  · rw [reads (.bytes rd) (decide_eq_true possible), tcpRead_ok idle accepted]
    rfl
  · rw [reads (.bytes rd) (decide_eq_true possible), tcpRead_failed idle nonempty rejected]

/-! ## The enqueue step -/

/-- An enabled enqueue step moves the pending Request to the tail of the queue (R168). -/
theorem enqueueStep_of_pending {s : State} {t : Transport} {r : Request} (alive : s.alive = true)
    (isOpen : s.isOpen t = true) (pend : s.pendOf t = some r) (room : s.rq.length < s.queueDepth) :
    enqueueStep t s = enqueueRequest r (s.modLink t fun l => { l with pend := none }) := by
  simp [enqueueStep, canEnqueue, alive, isOpen, pend, room]

theorem step_enqueue {s : State} {t : Transport} {r : Request} (alive : s.alive = true) (isOpen : s.isOpen t = true)
    (pend : s.pendOf t = some r) (room : s.rq.length < s.queueDepth) (rest : List Action) :
    step { s with agenda := .enqueue t :: rest } =
      .next (enqueueRequest r (State.modLink { s with agenda := rest } t fun l => { l with pend := none })) :=
  congrArg Host.Outcome.next (enqueueStep_of_pending (s := { s with agenda := rest }) alive
    ((isOpen_withAgenda ..).trans isOpen) ((pendOf_withAgenda ..).trans pend) room)

/-- What is observed the same has the same streams. -/
theorem streamsSame_of_observe {s t : State} (same : observe t = observe s) : streamsSame s t := by
  intro u
  cases u with
  | serial p => rw [txOf_serial, txOf_serial, same]
  | tcp c => rw [txOf_tcp, txOf_tcp, same]

/-- What is observed the same has the same banks. -/
theorem banksSame_of_observe {s t : State} (same : observe t = observe s) : banksSame s t := by
  refine ⟨fun b a => ?_, fun b a => ?_⟩
  · cases b with
    | co => exact congrArg (bankGet false · (wrap a)) (congrArg Observation.co same)
    | di => exact congrArg (bankGet false · (wrap a)) (congrArg Observation.di same)
  · cases b with
    | hr => exact congrArg (bankGet 0#16 · (wrap a)) (congrArg Observation.hr same)
    | ir => exact congrArg (bankGet 0#16 · (wrap a)) (congrArg Observation.ir same)

/-- Emptying `PEND[t]` opens and closes no transport. -/
theorem isOpen_modLink_pend (s : State) (t u : Transport) :
    (s.modLink t fun l => { l with pend := none }).isOpen u = s.isOpen u := by
  simp only [State.isOpen, link?_modLink]
  split
  · cases s.link? u <;> rfl
  · rfl

@[simp] theorem isOpen_enqueueRequest (r : Request) (s : State) (u : Transport) :
    (enqueueRequest r s).isOpen u = s.isOpen u := by
  simp [State.isOpen]

/-- Settles O38: with room the step moves the Request, which changes its own link's `PEND[t]` and the queue; while `RQ` is
full it is not enabled. -/
theorem enqueueMovesPendingToTail : Obligations.EnqueueMovesPendingToTail := by
  intro s t r rest alive isOpen pend
  constructor
  · intro room
    have same : observe (enqueueRequest r (State.modLink { s with agenda := rest } t fun l => { l with pend := none })) =
        observe s := observe_modLink (f := fun l => { l with pend := none }) (fun _ => rfl) t { s with agenda := rest }
    refine ⟨_, step_enqueue alive isOpen pend room rest, by simp, ?_, fun t' other => ?_, streamsSame_of_observe same,
      fun t' => ?_, fun p => ?_, banksSame_of_observe same, by simp⟩
    · simp [pendOf_modLink_none]
    · simp [link?_modLink, other]
    · simp [isOpen_modLink_pend]
    · rw [rxbufOf_enqueueRequest, rxbufOf_modLink]
      rfl
  · intro full
    exact step_of_not_enabled (by simp [Action.enabled, canEnqueue, full]) rest

/-! ## A TCP request from its bytes to its handler -/

/-- An element replaced and then changed back is in its place as before. -/
theorem modify_set_of_eq {α : Type} {l : List α} {i : Nat} {x y : α} {f : α → α} (place : l[i]? = some x)
    (back : f y = x) : (l.set i y).modify i f = l := by
  obtain ⟨bound, -⟩ := List.getElem?_eq_some_iff.mp place
  rw [List.modify_eq_set_getElem?, List.getElem?_set_self bound]
  simp [back, set_of_getElem? place]

/-- An idle connection with a Request put into its `PEND[c]` is restored by the enqueue step of that Request (R168). -/
theorem step_enqueue_restores {s : State} {c : Nat} {l : Link} (alive : s.alive = true) (conn : s.conns[c]? = some l)
    (isOpen : l.isOpen = true) (pend : l.pend = none) (room : s.rq.length < s.queueDepth) (r : Request)
    (rest : List Action) :
    step { s with agenda := .enqueue (.tcp c) :: rest, conns := s.conns.set c (l.pending r) } =
      .next { s with agenda := rest, rq := s.rq ++ [r] } := by
  have restored : (s.conns.set c (l.pending r)).modify c (fun k => { k with pend := none }) = s.conns :=
    modify_set_of_eq conn (by rw [Link.pending, ← pend])
  have opened : ({ s with conns := s.conns.set c (l.pending r) } : State).isOpen (.tcp c) = true := by
    simp [State.isOpen, link?_setConn conn, isOpen]
  have waiting : ({ s with conns := s.conns.set c (l.pending r) } : State).pendOf (.tcp c) = some r := by
    simp [pendOf_setConn conn]
  refine (step_enqueue (s := { s with conns := s.conns.set c (l.pending r) }) alive opened waiting room rest).trans ?_
  simp only [State.modLink, restored]
  rfl

/-- A dispatch step before shutdown runs the instruction at the head of the queue (R180). -/
theorem step_dispatch {s : State} {r : Request} {tail : List Request} (alive : s.alive = true)
    (up : s.shutdown = false) (queue : s.rq = r :: tail) (w : WriteAnswer) (rest : List Action) :
    step { s with agenda := .dispatch w :: rest } =
      exec (instrOf r) { s with agenda := rest, rq := tail, writeAnswer := w } := by
  simp [step, perform, dispatchStep, canDispatch, alive, up, queue]

/-- Settles O34: the read puts the Request into `PEND[c]`, the enqueue step restores the connection and puts the Request
alone into the queue, and the dispatch step empties the queue again. -/
theorem tcpRequestReachesItsHandler : Obligations.TcpRequestReachesItsHandler := by
  intro s c l rd i w rest alive up empty depth possible conn isOpen idle pend decoded
  obtain ⟨origin, accepted⟩ := (decode_eq_ok_iff_decodeFrame (.tcp c) rd i).1 decoded
  have row : instrOf { frame := frameOf i, origin := .tcp c } = i := origin ▸ instrOf_toRequest i
  have room : s.rq.length < s.queueDepth := empty ▸ depth
  have reads := step_tcpRead (a := .bytes rd) alive up conn isOpen pend (decide_eq_true possible)
    (.enqueue (.tcp c) :: .dispatch w :: rest)
  rw [tcpRead_ok idle accepted] at reads
  have enqueues := step_enqueue_restores alive conn isOpen pend room ⟨frameOf i, .tcp c⟩ (.dispatch w :: rest)
  have dispatches := step_dispatch (s := { s with rq := s.rq ++ [⟨frameOf i, .tcp c⟩] }) (tail := s.rq) alive up
    (by rw [empty]; rfl) w rest
  rw [row] at dispatches
  obtain ⟨adu, -, completes, -⟩ := exec_responds i { s with agenda := rest, writeAnswer := w }
  calc run 3 { s with agenda := .read (.tcp c) (.bytes rd) :: .enqueue (.tcp c) :: .dispatch w :: rest }
      = run 2 _ := run_succ_of_step reads 2
    _ = run 1 _ := run_succ_of_step enqueues 1
    _ = .next _ := run_succ_of_step (dispatches.trans completes) 0
    _ = exec i { s with agenda := rest, writeAnswer := w } := completes.symm

end Sys2Proof.Machine
end

section
/-! PROOFS of the dispatcher family: the function code selects the handler (O13), the result, completion and frame of
every handler (O20 to O25), what a lost Response and the identity have to do with the banks (O28, O29), what was written
reads back (O30, O31), what a Dispatcher step runs (O32, O33), that shutdown stops it (O41), and that every step has a next
state (O51). The facts come first: runs of writes, payloads, and each handler on Data that passes its checks and on all
other Data. -/

namespace Sys2Proof.Machine

/-! ## A run of writes in one bank -/

section BankRun

variable {α : Type} [DecidableEq α] {d : α} {m : Bank α}

/-- The bank with `n` elements from `addr` on set to `f 0 .. f (n - 1)` (R189, R190). -/
def bankPutRun (d : α) (addr : Word) (f : Nat → α) : Nat → Bank α → Bank α
  | 0, m => m
  | n + 1, m => bankPut d (bankPutRun d addr f n m) (wrap (elemAddr addr n)) (f n)

theorem bankPutRun_wf (wf : bankWf d m = true) (addr : Word) (f : Nat → α) (n : Nat) :
    bankWf d (bankPutRun d addr f n m) = true := by
  induction n with
  | zero => exact wf
  | succ n ih => exact bankWf_bankPut ih (wrap_lt _) _

/-- Two elements of one run have two addresses, since a run is no longer than the bank (R214). -/
theorem wrap_elemAddr_inj {addr : Word} {j k : Nat} (hj : j < Config.bankCap) (hk : k < Config.bankCap)
    (same : wrap (elemAddr addr j) = wrap (elemAddr addr k)) : j = k := by
  simp only [wrap, elemAddr, Config.bankCap] at *
  omega

/-- An element outside the run reads as before. -/
theorem bankGet_bankPutRun_of_ne (wf : bankWf d m = true) {addr : Word} {f : Nat → α} {n a : Nat}
    (outside : ∀ k, k < n → a ≠ wrap (elemAddr addr k)) : bankGet d (bankPutRun d addr f n m) a = bankGet d m a := by
  induction n with
  | zero => rfl
  | succ n ih =>
    rw [bankPutRun, bankGet_bankPut (bankPutRun_wf wf addr f n), if_neg (outside n n.lt_succ_self)]
    exact ih fun k hk => outside k (hk.trans n.lt_succ_self)

/-- An element of the run reads what the run wrote to it, no later write of the run having the same address. -/
theorem bankGet_bankPutRun_of_lt (wf : bankWf d m = true) {addr : Word} {f : Nat → α} {n k : Nat}
    (fits : n ≤ Config.bankCap) (hk : k < n) : bankGet d (bankPutRun d addr f n m) (wrap (elemAddr addr k)) = f k := by
  induction n with
  | zero => exact absurd hk k.not_lt_zero
  | succ n ih =>
    rw [bankPutRun, bankGet_bankPut (bankPutRun_wf wf addr f n)]
    split
    next same => rw [wrap_elemAddr_inj (hk.trans_le fits) fits same]
    next other =>
      have earlier : k ≠ n := fun e => other (e ▸ rfl)
      exact ih (Nat.le_of_succ_le fits) (by omega)

end BankRun

/-- A run of coil writes, as a run of writes in `CO`. -/
theorem writeBitRun_co_eq (addr : Word) (f : Nat → Bool) (n : Nat) (s : State) :
    writeBitRun .co addr f n s = { s with co := bankPutRun false addr f n s.co } := by
  induction n with
  | zero => rfl
  | succ n ih =>
    rw [writeBitRun, ih]
    rfl

/-- A run of register writes, as a run of writes in `HR`. -/
theorem writeWordRun_hr_eq (addr : Word) (f : Nat → Word) (n : Nat) (s : State) :
    writeWordRun .hr addr f n s = { s with hr := bankPutRun 0#16 addr f n s.hr } := by
  induction n with
  | zero => rfl
  | succ n ih =>
    rw [writeWordRun, ih]
    rfl

/-! ## Addresses -/

/-- Addresses are taken modulo 65536 (R214). -/
theorem bankReadBit_mod (s : State) (b : BitBank) (a : Nat) : bankReadBit s b (a % 65536) = bankReadBit s b a :=
  congrArg (bankGet false (s.bits b)) (wrap_wrap a)

theorem bankReadWord_mod (s : State) (b : WordBank) (a : Nat) : bankReadWord s b (a % 65536) = bankReadWord s b a :=
  congrArg (bankGet 0#16 (s.words b)) (wrap_wrap a)

/-! ## Response payloads -/

/-- Bit `j` of a byte that starts at 0 and into which the lowest `n` bits have been put in turn. -/
theorem getLsbD_foldl_or_shift (f : Nat → Prop) [DecidablePred f] {n : Nat} (hn : n ≤ 8) (j : Nat) :
    ((List.range n).foldl (fun acc j => if f j then acc ||| (1#8 <<< j) else acc) 0#8).getLsbD j =
      (decide (j < n) && decide (f j)) := by
  induction n with
  | zero => simp
  | succ n ih =>
    have before := ih (by omega)
    have one : (1#8 <<< n).getLsbD j = decide (j = n) := by
      rw [← BitVec.twoPow_eq, BitVec.getLsbD_twoPow]
      simp only [eq_comm, show n < 8 by omega, decide_true, Bool.true_and]
    rw [List.range_succ, List.foldl_append, List.foldl_cons, List.foldl_nil]
    by_cases last : j = n
    · subst last
      by_cases hf : f j <;> simp [hf, one, before]
    · have earlier : j < n + 1 ↔ j < n := by omega
      by_cases hf : f n <;> simp [hf, one, before, last, earlier]

/-- Bit `j` of packed byte `k` is element `8k + j`, and 0 beyond the count (R109). -/
theorem getLsbD_packByte (count : Nat) (f : Nat → Bool) (k : Nat) {j : Nat} (hj : j < 8) :
    (packByte count f k).getLsbD j = (decide (8 * k + j < count) && f (8 * k + j)) := by
  refine (getLsbD_foldl_or_shift (fun j => 8 * k + j < count ∧ f (8 * k + j) = true) le_rfl j).trans ?_
  simp [hj]

theorem byteAt_map_range {n k : Nat} (f : Nat → Byte) (hk : k < n) : byteAt ((List.range n).map f) k = f k := by
  simp [byteAt, List.getD_eq_getElem?_getD, hk]

/-- What `bitsPayload` builds is `RS_BITS` of its bits (R109). -/
theorem isBitsPayload_bitsPayload {n : Nat} (fits : n ≤ Config.maxReadBits) (f : Nat → Bool) :
    isBitsPayload (bitsPayload n f) n f := by
  have small : ceil8 n ≤ 255 := by
    simp only [ceil8, Config.maxReadBits] at *
    omega
  refine ⟨bitsPayload_length n f, countByte_toNat small, fun k hk => ?_⟩
  have packed : byteAt (bitsPayload n f) (1 + k / 8) = packByte n f (k / 8) := by
    rw [Nat.add_comm]
    exact byteAt_map_range (packByte n f) (Nat.div_lt_of_lt_mul hk)
  rw [packed, getLsbD_packByte n f _ (Nat.mod_lt k (by decide)), Nat.div_add_mod]

/-- `RS_BITS` speaks of the bits below the count alone. -/
theorem isBitsPayload.congr {p : List Byte} {n : Nat} {f g : Nat → Bool} (h : isBitsPayload p n f)
    (same : ∀ k, k < n → f k = g k) : isBitsPayload p n g := by
  obtain ⟨length, count, bits⟩ := h
  refine ⟨length, count, fun k hk => (bits k hk).trans ?_⟩
  by_cases below : k < n
  · rw [same k below]
  · simp [below]

/-- The values of `RS_REGS`, as the bytes of a list of words. -/
theorem regsPayload_eq_flatMap (n : Nat) (f : Nat → Word) :
    regsPayload n f = countByte (2 * n) :: ((List.range n).map f).flatMap wordBytes := by
  rw [regsPayload, List.flatMap_map]

/-- What `regsPayload` builds is `RS_REGS` of its words (R110). -/
theorem isRegsPayload_regsPayload {n : Nat} (fits : n ≤ Config.maxReadRegs) (f : Nat → Word) :
    isRegsPayload (regsPayload n f) n f := by
  have small : 2 * n ≤ 255 := by
    simp only [Config.maxReadRegs] at fits
    omega
  refine ⟨regsPayload_length n f, countByte_toNat small, fun k hk => ?_⟩
  have value : u16be (byteAt (regsPayload n f) (1 + 2 * k)) (byteAt (regsPayload n f) (2 + 2 * k)) = f k := by
    rw [regsPayload_eq_flatMap, show 2 + 2 * k = 2 * k + 1 + 1 by omega, Nat.add_comm 1, byteAt_cons_succ,
      byteAt_cons_succ, u16be_byteAt_flatMap_wordBytes]
    simp [hk]
  rw [← value, ← hi8_toNat, ← lo8_toNat, hi8_u16be, lo8_u16be]
  exact ⟨rfl, rfl⟩

/-- `RS_REGS` is built of the words below the count alone. -/
theorem regsPayload_congr {n : Nat} {f g : Nat → Word} (same : ∀ k, k < n → f k = g k) :
    regsPayload n f = regsPayload n g := by
  rw [regsPayload_eq_flatMap, regsPayload_eq_flatMap, List.map_congr_left fun k hk => same k (List.mem_range.mp hk)]

/-! ## Each handler, on Data that passes its checks and on all other Data -/

theorem handleReadBits_ok {data : List Byte} (ok : readOk Config.maxReadBits data) (b : BitBank) (s : State) :
    handleReadBits b data s =
      (.success (bitsPayload (countOf data) fun i => bankReadBit s b (elemAddr (addrOf data) i)), s) := by
  rw [handleReadBits, readOperands_ok ok]

theorem handleReadBits_error {data : List Byte} (bad : ¬ readOk Config.maxReadBits data) (b : BitBank) (s : State) :
    handleReadBits b data s = (.exception .illegalDataValue, s) := by
  rw [handleReadBits, readOperands_error bad]

theorem handleReadRegs_ok {data : List Byte} (ok : readOk Config.maxReadRegs data) (b : WordBank) (s : State) :
    handleReadRegs b data s =
      (.success (regsPayload (countOf data) fun i => bankReadWord s b (elemAddr (addrOf data) i)), s) := by
  rw [handleReadRegs, readOperands_ok ok]

theorem handleReadRegs_error {data : List Byte} (bad : ¬ readOk Config.maxReadRegs data) (b : WordBank) (s : State) :
    handleReadRegs b data s = (.exception .illegalDataValue, s) := by
  rw [handleReadRegs, readOperands_error bad]

/-- The Data that passes the checks of a write: the length is tested first, and again by the byteCount. -/
theorem writeOk_iff {max : Nat} {bytes : Nat → Nat} {data : List Byte} : writeOk max bytes data ↔
    1 ≤ countOf data ∧ countOf data ≤ max ∧ (byteAt data 4).toNat = bytes (countOf data) ∧
      data.length = 5 + bytes (countOf data) := by
  constructor
  · exact And.right
  · rintro ⟨least, most, byteCount, length⟩
    exact ⟨by omega, least, most, byteCount, length⟩

theorem handleWriteCoils_ok {data : List Byte} (ok : writeOk Config.maxWriteBits ceil8 data) (s : State) :
    handleWriteCoils data s =
      (.success (data.take 4),
        { s with co := bankPutRun false (addrOf data) (coilOperand data) (countOf data) s.co }) := by
  rw [handleWriteCoils, writeOperands_ok (writeOk_iff.mp ok), ← writeBitRun_co_eq]
  rfl

theorem handleWriteCoils_error {data : List Byte} (bad : ¬ writeOk Config.maxWriteBits ceil8 data) (s : State) :
    handleWriteCoils data s = (.exception .illegalDataValue, s) := by
  rw [handleWriteCoils, writeOperands_error (mt writeOk_iff.mpr bad)]

theorem handleWriteRegs_ok {data : List Byte} (ok : writeOk Config.maxWriteRegs (2 * ·) data) (s : State) :
    handleWriteRegs data s =
      (.success (data.take 4),
        { s with hr := bankPutRun 0#16 (addrOf data) (regOperand data) (countOf data) s.hr }) := by
  rw [handleWriteRegs, writeOperands_ok (writeOk_iff.mp ok), ← writeWordRun_hr_eq]
  rfl

theorem handleWriteRegs_error {data : List Byte} (bad : ¬ writeOk Config.maxWriteRegs (2 * ·) data) (s : State) :
    handleWriteRegs data s = (.exception .illegalDataValue, s) := by
  rw [handleWriteRegs, writeOperands_error (mt writeOk_iff.mpr bad)]

/-- Every row of `ILLEGAL` has the one handler (R191). -/
theorem handle_of_isIllegal {i : Instr} (illegal : isIllegal i = true) (s : State) :
    handle i s = (.exception .illegalFunction, s) := by
  cases i with
  | rdco | rddi | rdhr | rdir | wrmc | wrmr => cases illegal
  | _ => rfl

/-! ## From a handler's outcome to what the instruction does -/

/-- A handler's payload becomes a normal Response (R192), sent from the state the handler leaves. -/
theorem responds_of_handle_success {i : Instr} {s s' : State} {p : List Byte} (h : handle i s = (.success p, s')) :
    ∃ adu, responds i s (transmit i.origin adu s') (buildResponse (frameOf i) p) := by
  obtain ⟨adu, -, -, completes⟩ := exec_responds i s
  rw [h] at completes
  exact ⟨adu, completes⟩

/-- A handler's exception becomes an Exception Frame, and no bank changes (R193). -/
theorem takesException_of_handle {i : Instr} {s : State} {code : ExcCode} (h : handle i s = (.exception code, s)) :
    takesException i s code := by
  obtain ⟨adu, -, -, completes⟩ := exec_responds i s
  rw [h] at completes
  exact ⟨_, completes, banksSame_transmit ..⟩

/-! ## The handlers: result, completion and frame -/

/-- A read of bits that passes the checks, by an instruction that reads the bank `b` (R185, R186). -/
theorem bitRead_result {i : Instr} {b : BitBank} {data : List Byte} {s : State}
    (handler : handle i s = handleReadBits b data s) (ok : readOk Config.maxReadBits data) :
    ∃ t p, responds i s t (buildResponse (frameOf i) p) ∧ banksSame s t ∧
      isBitsPayload p (countOf data) fun k => bankReadBit s b (((addrOf data).toNat + k) % 65536) := by
  obtain ⟨adu, completes⟩ := responds_of_handle_success (handler.trans (handleReadBits_ok ok b s))
  refine ⟨_, _, completes, banksSame_transmit .., ?_⟩
  simp only [bankReadBit_mod]
  exact isBitsPayload_bitsPayload ok.2.2 _

/-- Settles O20: both instructions have the bit-read handler, each with its bank. -/
theorem bitReadResult : Obligations.BitReadResult := by
  refine fun q data s => ⟨fun ok => ⟨bitRead_result rfl ok, bitRead_result rfl ok⟩, fun bad => ⟨?_, ?_⟩⟩
  · exact takesException_of_handle (handleReadBits_error bad .co s)
  · exact takesException_of_handle (handleReadBits_error bad .di s)

/-- A read of registers that passes the checks, by an instruction that reads the bank `b` (R187, R188). -/
theorem registerRead_result {i : Instr} {b : WordBank} {data : List Byte} {s : State}
    (handler : handle i s = handleReadRegs b data s) (ok : readOk Config.maxReadRegs data) :
    ∃ t p, responds i s t (buildResponse (frameOf i) p) ∧ banksSame s t ∧
      isRegsPayload p (countOf data) fun k => bankReadWord s b (((addrOf data).toNat + k) % 65536) := by
  obtain ⟨adu, completes⟩ := responds_of_handle_success (handler.trans (handleReadRegs_ok ok b s))
  refine ⟨_, _, completes, banksSame_transmit .., ?_⟩
  simp only [bankReadWord_mod]
  exact isRegsPayload_regsPayload ok.2.2 _

/-- Settles O21: both instructions have the register-read handler, each with its bank. -/
theorem registerReadResult : Obligations.RegisterReadResult := by
  refine fun q data s => ⟨fun ok => ⟨registerRead_result rfl ok, registerRead_result rfl ok⟩, fun bad => ⟨?_, ?_⟩⟩
  · exact takesException_of_handle (handleReadRegs_error bad .hr s)
  · exact takesException_of_handle (handleReadRegs_error bad .ir s)

/-- Settles O22: the handler's state is `s` with a run of writes in `CO`, and sending changes no bank. -/
theorem coilWriteResult : Obligations.CoilWriteResult := by
  intro q data s wf
  refine ⟨fun ok => ?_, fun bad => takesException_of_handle (handleWriteCoils_error bad s)⟩
  obtain ⟨adu, completes⟩ := responds_of_handle_success (i := .wrmc q data) (handleWriteCoils_ok ok s)
  obtain ⟨sameBits, sameWords⟩ := banksSame_transmit
    { s with co := bankPutRun false (addrOf data) (coilOperand data) (countOf data) s.co } q.origin adu
  have fits : countOf data ≤ Config.bankCap := ok.2.2.1.trans (by decide)
  refine ⟨_, completes, fun k hk => ?_, fun a ha outside => ?_, fun a => sameBits .di a, fun b a => ?_⟩
  · exact (sameBits ..).trans ((bankReadBit_mod ..).trans (bankGet_bankPutRun_of_lt (bits_wf wf .co) fits hk))
  · have address : wrap a = a := Nat.mod_eq_of_lt ha
    exact (sameBits .co a).trans (bankGet_bankPutRun_of_ne (bits_wf wf .co) (address.symm ▸ outside))
  · exact (sameWords b a).trans (by cases b <;> rfl)

/-- Settles O23: the same for `HR`. -/
theorem registerWriteResult : Obligations.RegisterWriteResult := by
  intro q data s wf
  refine ⟨fun ok => ?_, fun bad => takesException_of_handle (handleWriteRegs_error bad s)⟩
  obtain ⟨adu, completes⟩ := responds_of_handle_success (i := .wrmr q data) (handleWriteRegs_ok ok s)
  obtain ⟨sameBits, sameWords⟩ := banksSame_transmit
    { s with hr := bankPutRun 0#16 (addrOf data) (regOperand data) (countOf data) s.hr } q.origin adu
  have fits : countOf data ≤ Config.bankCap := ok.2.2.1.trans (by decide)
  refine ⟨_, completes, fun k hk => ?_, fun a ha outside => ?_, fun a => sameWords .ir a, fun b a => ?_⟩
  · have written := (sameWords .hr _).trans
      ((bankReadWord_mod _ .hr _).trans (bankGet_bankPutRun_of_lt (f := regOperand data) (words_wf wf .hr) fits hk))
    exact (congrArg BitVec.toNat written).trans (u16be_toNat ..)
  · have address : wrap a = a := Nat.mod_eq_of_lt ha
    exact (sameWords .hr a).trans (bankGet_bankPutRun_of_ne (words_wf wf .hr) (address.symm ▸ outside))
  · exact (sameBits b a).trans (by cases b <;> rfl)

/-- Settles O24: the 13 rows share one handler, and its outcome is the exception. -/
theorem illegalCodeTakesIllegalFunction : Obligations.IllegalCodeTakesIllegalFunction :=
  fun _ s illegal => takesException_of_handle (handle_of_isIllegal illegal s)

/-! ## Exactly one Response -/

/-- A payload has a byteCount and at least one byte more (R98). -/
theorem two_le_length_of_handle_success {i : Instr} {s s' : State} {p : List Byte}
    (h : handle i s = (.success p, s')) : 2 ≤ p.length := by
  cases i with
  | rdco q data | rddi q data =>
    rw [handle] at h
    by_cases ok : readOk Config.maxReadBits data
    · cases (handleReadBits_ok ok _ s).symm.trans h
      rw [bitsPayload_length, ceil8]
      omega
    · cases (handleReadBits_error ok _ s).symm.trans h
  | rdhr q data | rdir q data =>
    rw [handle] at h
    by_cases ok : readOk Config.maxReadRegs data
    · cases (handleReadRegs_ok ok _ s).symm.trans h
      rw [regsPayload_length]
      omega
    · cases (handleReadRegs_error ok _ s).symm.trans h
  | wrmc q data =>
    by_cases ok : writeOk Config.maxWriteBits ceil8 data
    · cases (handleWriteCoils_ok ok s).symm.trans h
      rw [List.length_take]
      omega
    · cases (handleWriteCoils_error ok s).symm.trans h
  | wrmr q data =>
    by_cases ok : writeOk Config.maxWriteRegs (2 * ·) data
    · cases (handleWriteRegs_ok ok s).symm.trans h
      rw [List.length_take]
      omega
    · cases (handleWriteRegs_error ok s).symm.trans h
  | _ => cases h

/-- A Response keeps the unit id (R147, R148). -/
theorem responseOf_unit (req : Frame) (o : HandlerOutcome) : (responseOf req o).unit = req.unit := by
  cases o <;> rfl

/-- A Response keeps the identifiers of a TCP header, and an RTU Response has no checksum yet (R147, R148). -/
theorem responseOf_head (req : Frame) (o : HandlerOutcome) : (responseOf req o).head = responseHeader req.head := by
  cases o <;> rfl

/-- Settles O25: the three outcomes of `handle_cases`, each as its Response. -/
theorem exactlyOneResponse : Obligations.ExactlyOneResponse := by
  intro i s
  obtain ⟨adu, -, -, completes⟩ := exec_responds i s
  refine ⟨_, _, completes, responseOf_unit .., fun txn proto head => ?_, fun crc head => ?_, ?_⟩
  · exact (responseOf_head ..).trans (congrArg responseHeader head)
  · exact (responseOf_head ..).trans (congrArg responseHeader head)
  · rcases handle_cases i s with ⟨p, s', h, most⟩ | h | h
    · rw [h]
      exact .inl ⟨rfl, two_le_length_of_handle_success h, most⟩
    · rw [h]
      exact .inr ⟨rfl, .inr rfl⟩
    · rw [h]
      exact .inr ⟨rfl, .inl rfl⟩

/-! ## The function code -/

/-- The bits a row of `ILLEGAL` leaves free never make its code an admitted one (R104). -/
theorem isIllegal_iff_fc (i : Instr) : isIllegal i = true ↔ i.fc ∉ admittedCodes := by
  have free (k : Nat) (base : Byte) (h : ∀ lo : BitVec k, illegalFc base lo ∉ admittedCodes) (lo : BitVec k) :
      true = true ↔ illegalFc base lo ∉ admittedCodes := iff_of_true rfl (h lo)
  cases i with
  | rdco | rddi | rdhr | rdir | wrmc | wrmr => simp [isIllegal, Instr.fc, admittedCodes]
  | illegal00 | illegal05 | illegal0E | illegal11 => simp [isIllegal, Instr.fc, admittedCodes]
  | illegal06 q lo data => exact free 1 0x06#8 (by decide) lo
  | illegal08 q lo data => exact free 2 0x08#8 (by decide) lo
  | illegal0C q lo data => exact free 1 0x0C#8 (by decide) lo
  | illegal12 q lo data => exact free 1 0x12#8 (by decide) lo
  | illegal14 q lo data => exact free 2 0x14#8 (by decide) lo
  | illegal18 q lo data => exact free 3 0x18#8 (by decide) lo
  | illegal20 q lo data => exact free 5 0x20#8 (by decide) lo
  | illegal40 q lo data => exact free 6 0x40#8 (by decide) lo
  | illegal80 q lo data => exact free 7 0x80#8 (by decide +kernel) lo

/-- The rows of `ILLEGAL` take exactly the codes that are not admitted (R104). -/
theorem isIllegal_instrOfParts_iff (q : Ident) (fc : Byte) (data : List Byte) :
    isIllegal (instrOfParts q fc data) = true ↔ fc ∉ admittedCodes := by
  rw [isIllegal_iff_fc, instrOfParts_fc]

/-- Settles O13: each admitted code is tested for by itself, and for the rest an instruction keeps the code it is
selected by. -/
theorem functionCodeSelectsHandler : Obligations.FunctionCodeSelectsHandler :=
  fun q data => ⟨rfl, rfl, rfl, rfl, rfl, rfl, fun fc => ⟨isIllegal_instrOfParts_iff q fc data,
    instrOfParts_fc q fc data, instrOfParts_ident q fc data, instrOfParts_data q fc data⟩⟩

/-! ## What a request does to the banks -/

/-- The contents of the four banks are the same. -/
def banksEqual (t u : State) : Prop := t.co = u.co ∧ t.di = u.di ∧ t.hr = u.hr ∧ t.ir = u.ir

theorem banksEqual.trans {t u v : State} (h : banksEqual t u) (h' : banksEqual u v) : banksEqual t v := by
  obtain ⟨co, di, hr, ir⟩ := h
  obtain ⟨co', di', hr', ir'⟩ := h'
  exact ⟨co.trans co', di.trans di', hr.trans hr', ir.trans ir'⟩

theorem banksEqual.symm {t u : State} (h : banksEqual t u) : banksEqual u t := by
  obtain ⟨co, di, hr, ir⟩ := h
  exact ⟨co.symm, di.symm, hr.symm, ir.symm⟩

/-- An instruction leaves the banks as its handler does, since sending changes none, and adds at most one ADU to the
stream it came from. -/
theorem exec_effect (i : Instr) (s : State) :
    ∃ t adu, exec i s = .next t ∧ banksEqual t (handle i s).2 ∧ streamGains s t i.origin adu := by
  obtain ⟨adu, -, completes, -, adu', -, gains, -⟩ := exec_responds i s
  exact ⟨_, adu', completes, ⟨transmit_co .., transmit_di .., transmit_hr .., transmit_ir ..⟩, gains⟩

/-- The function code and the Data alone reach the handler: six codes have their own, and the others share one (R182,
R184, R191). -/
theorem handle_instrOfParts_ident (q q' : Ident) (fc : Byte) (data : List Byte) (s : State) :
    handle (instrOfParts q fc data) s = handle (instrOfParts q' fc data) s := by
  by_cases admitted : fc ∈ admittedCodes
  · simp only [admittedCodes, List.mem_cons, List.not_mem_nil, or_false] at admitted
    rcases admitted with rfl | rfl | rfl | rfl | rfl | rfl <;> rfl
  · rw [handle_of_isIllegal ((isIllegal_instrOfParts_iff q fc data).mpr admitted),
      handle_of_isIllegal ((isIllegal_instrOfParts_iff q' fc data).mpr admitted)]

/-- The device's answer to the `Write` takes no part in a handler. -/
theorem handle_withWriteAnswer (i : Instr) (s : State) (w : WriteAnswer) :
    handle i { s with writeAnswer := w } = ((handle i s).1, { (handle i s).2 with writeAnswer := w }) := by
  cases i with
  | rdco | rddi =>
    simp only [handle, handleReadBits]
    split <;> rfl
  | rdhr | rdir =>
    simp only [handle, handleReadRegs]
    split <;> rfl
  | wrmc =>
    simp only [handle, handleWriteCoils, writeBitRun_co_eq]
    split <;> rfl
  | wrmr =>
    simp only [handle, handleWriteRegs, writeWordRun_hr_eq]
    split <;> rfl
  | _ => rfl

/-- A Response that is lost adds nothing to any stream (R195). -/
theorem streamGains.lost {s t : State} {o : Transport} {adu : List Byte} (h : streamGains s t o adu)
    (lost : s.isOpen o = false ∨ s.writeAnswer = .error) : streamsSame s t := by
  intro u
  rw [h, if_neg]
  rintro ⟨-, isOpen, answer⟩
  rcases lost with closed | failed
  · exact absurd (closed.symm.trans isOpen) nofun
  · exact absurd (failed.symm.trans answer) nofun

@[simp] theorem isOpen_withWriteAnswer (s : State) (w : WriteAnswer) (u : Transport) :
    ({ s with writeAnswer := w } : State).isOpen u = s.isOpen u := by
  cases u <;> rfl

@[simp] theorem txOf_withWriteAnswer (s : State) (w : WriteAnswer) (u : Transport) :
    ({ s with writeAnswer := w } : State).txOf u = s.txOf u := by
  cases u <;> rfl

/-- An instruction completes with any answer of the device; its banks are those its handler gives with no regard to the
answer, and a Response that is lost leaves every stream as it was. -/
theorem exec_withWriteAnswer (i : Instr) (s : State) (w : WriteAnswer) :
    ∃ t, exec i { s with writeAnswer := w } = .next t ∧ banksEqual t (handle i s).2 ∧
      (s.isOpen i.origin = false ∨ w = .error → streamsSame s t) := by
  obtain ⟨t, adu, completes, banks, gains⟩ := exec_effect i { s with writeAnswer := w }
  rw [handle_withWriteAnswer] at banks
  refine ⟨t, completes, banks, fun lost u => ?_⟩
  rw [gains.lost (by simpa using lost) u, txOf_withWriteAnswer]

/-- Settles O28: `exec_withWriteAnswer` for the two answers. -/
theorem lostResponseKeepsBankEffects : Obligations.LostResponseKeepsBankEffects := by
  intro q q' fc data s
  obtain ⟨t, failed, banksT, lostT⟩ := exec_withWriteAnswer (instrOfParts q fc data) s .error
  obtain ⟨u, taken, banksU, lostU⟩ := exec_withWriteAnswer (instrOfParts q' fc data) s .ok
  rw [handle_instrOfParts_ident q q'] at banksT
  rw [Instr.origin, instrOfParts_ident] at lostU
  exact ⟨t, u, failed, taken, lostT (.inr rfl), fun closed => lostU (.inl closed), banksT.trans banksU.symm⟩

/-- Settles O29: both requests have the same handler. -/
theorem identityDoesNotReachBanks : Obligations.IdentityDoesNotReachBanks := by
  intro q q' fc data s
  obtain ⟨t, _, first, banksT, -⟩ := exec_effect (instrOfParts q fc data) s
  obtain ⟨u, _, second, banksU, -⟩ := exec_effect (instrOfParts q' fc data) s
  rw [handle_instrOfParts_ident q q'] at banksT
  exact ⟨t, u, first, second, banksT.trans banksU.symm⟩

/-! ## What was written reads back -/

theorem byteAt_take {n i : Nat} (h : i < n) (l : List Byte) : byteAt (l.take n) i = byteAt l i := by
  simp [byteAt, List.getD_eq_getElem?_getD, h]

theorem byteAt_drop (l : List Byte) (n i : Nat) : byteAt (l.drop n) i = byteAt l (n + i) := by
  simp [byteAt, List.getD_eq_getElem?_getD]

theorem addrOf_take_four (data : List Byte) : addrOf (data.take 4) = addrOf data := by
  simp [addrOf, byteAt_take]

theorem countOf_take_four (data : List Byte) : countOf (data.take 4) = countOf data := by
  simp [countOf, byteAt_take]

/-- The address and count of a write that passes its checks are a read that passes its own, with no smaller a limit. -/
theorem readOk_take_four {max max' : Nat} {bytes : Nat → Nat} {data : List Byte} (ok : writeOk max bytes data)
    (limits : max ≤ max') : readOk max' (data.take 4) := by
  obtain ⟨long, least, most, -⟩ := ok
  rw [readOk, countOf_take_four, List.length_take]
  exact ⟨by omega, least, most.trans limits⟩

/-- Settles O30: the bits the read returns (O20) are those the write left (O22). -/
theorem writtenCoilsReadBack : Obligations.WrittenCoilsReadBack := by
  intro q q' data s wf ok
  obtain ⟨t, ⟨written, -⟩, coils, -⟩ := (coilWriteResult q data s wf).1 ok
  obtain ⟨⟨u, p, read, -, bits⟩, -⟩ := (bitReadResult q' (data.take 4) t).1 (readOk_take_four ok (by decide))
  rw [addrOf_take_four, countOf_take_four] at bits
  exact ⟨t, u, p, written, read, bits.congr coils⟩

/-- `RS_REGS` of given words is one payload only. -/
theorem isRegsPayload.unique {p p' : List Byte} {n : Nat} {f : Nat → Word} (h : isRegsPayload p n f)
    (h' : isRegsPayload p' n f) : p = p' := by
  obtain ⟨length, count, words⟩ := h
  obtain ⟨length', count', words'⟩ := h'
  have bytes : ∀ i, i < 1 + 2 * n → byteAt p i = byteAt p' i := by
    intro i hi
    apply BitVec.eq_of_toNat_eq
    have place : i = 0 ∨ ∃ k, k < n ∧ (i = 1 + 2 * k ∨ i = 2 + 2 * k) := by
      rcases Nat.eq_zero_or_pos i with zero | pos
      · exact .inl zero
      · exact .inr ⟨(i - 1) / 2, by omega, by omega⟩
    rcases place with rfl | ⟨k, hk, rfl | rfl⟩
    · rw [count, count']
    · rw [(words k hk).1, (words' k hk).1]
    · rw [(words k hk).2, (words' k hk).2]
  refine List.ext_getElem (length.trans length'.symm) fun i hi hi' => ?_
  simpa [byteAt, hi, hi'] using bytes i (length ▸ hi)

/-- Settles O31: the payload the read gives (O21) and the Data behind the address and count are both `RS_REGS` of the
words the write left (O23). -/
theorem writtenRegistersReadBack : Obligations.WrittenRegistersReadBack := by
  intro q q' data s wf ok
  obtain ⟨t, ⟨written, -⟩, registers, -⟩ := (registerWriteResult q data s wf).1 ok
  obtain ⟨⟨u, p, read, -, words⟩, -⟩ := (registerReadResult q' (data.take 4) t).1 (readOk_take_four ok (by decide))
  rw [addrOf_take_four, countOf_take_four] at words
  obtain ⟨-, -, -, byteCount, (length : data.length = 5 + 2 * countOf data)⟩ := ok
  have sent : isRegsPayload (data.drop 4) (countOf data)
      fun k => bankReadWord t .hr (((addrOf data).toNat + k) % 65536) := by
    refine ⟨by rw [List.length_drop]; omega, by rw [byteAt_drop]; exact byteCount, fun k hk => ?_⟩
    have low : (byteAt data (6 + 2 * k)).toNat < 256 := BitVec.isLt _
    rw [registers k hk, byteAt_drop, byteAt_drop, show 4 + (1 + 2 * k) = 5 + 2 * k by omega,
      show 4 + (2 + 2 * k) = 6 + 2 * k by omega]
    omega
  exact ⟨t, u, written, words.unique sent ▸ read⟩

/-! ## The Dispatcher's step -/

/-- The instruction that bytes decode to is that of the Request they make. -/
theorem instrOf_of_decode {t : Transport} {b : List Byte} {i : Instr} {f : Frame} (decoded : decode t b = .ok i)
    (accepted : decodeFrame t b = .ok f) : instrOf { frame := f, origin := t } = i := by
  rw [decode, accepted] at decoded
  exact Except.ok.inj decoded

/-- Settles O32: an enabled dispatch step runs the instruction of the Request at the head, which is the one decoded. -/
theorem stepRunsDecodedInstruction : Obligations.StepRunsDecodedInstruction := by
  intro s t b i f w rest tail decoded accepted alive up
  rw [← instrOf_of_decode decoded accepted]
  exact step_dispatch (s := { s with rq := { frame := f, origin := t } :: tail }) alive up rfl w rest

/-- What `decodeTableWord` reads is what the decoder makes of the word's ADU (log 19). -/
theorem decode_of_decodeTableWord {nbits w : Nat} {i : Instr} (h : decodeTableWord nbits w = some i) :
    decode tableTransport (tableAdu nbits w) = .ok i := by
  unfold decodeTableWord at h
  split at h
  next decoded => rw [decoded, Option.some.inj h]
  next => cases h

/-- Settles O33: `placeRequest` makes the word's Request the head of the queue and the Dispatcher the next to move. -/
theorem fetchWordRunsTableInstruction : Obligations.FetchWordRunsTableInstruction := by
  intro s nbits w i h
  have decoded := decode_of_decodeTableWord h
  obtain ⟨-, accepted⟩ := (decode_eq_ok_iff_decodeFrame ..).1 decoded
  rw [← instrOf_of_decode decoded accepted, State.withFetchWord, accepted]
  exact step_dispatch (s := placeRequest { frame := frameOf i, origin := tableTransport } s) rfl rfl rfl .ok s.agenda

/-! ## Shutdown, and what a step can come to -/

/-- With shutdown raised an action sends nothing and takes nothing from the queue: the Dispatcher, who alone does
either, is not enabled (R197). -/
theorem perform_down {a : Action} {s t : State} (h : perform a s = .next t) (down : s.shutdown = true) :
    streamsSame s t ∧ s.rq <+: t.rq := by
  by_cases dispatches : ∃ w, a = .dispatch w
  · obtain ⟨w, rfl⟩ := dispatches
    cases (dispatchStep_waits (w := w) (by simp [canDispatch, down])).symm.trans h
    exact ⟨fun u => rfl, List.prefix_rfl⟩
  · refine ⟨fun u => ?_, (perform_queue_parameters h).1.prefix_of_no_dispatch fun w e => dispatches ⟨w, e⟩⟩
    rcases (perform_effect h).stream u with same | ⟨⟨w, _, e, -⟩, -⟩
    · exact same
    · exact absurd ⟨w, e⟩ dispatches

theorem step_down {s t : State} (h : step s = .next t) (down : s.shutdown = true) :
    streamsSame s t ∧ s.rq <+: t.rq := by
  rcases step_cases h with ⟨-, rfl⟩ | ⟨a, rest, -, hp⟩
  · exact ⟨fun u => rfl, List.prefix_rfl⟩
  · obtain ⟨same, queue⟩ := perform_down hp down
    exact ⟨fun u => (same u).trans (txOf_withAgenda ..), queue⟩

/-- Settles O41, by induction on the number of steps. -/
theorem shutdownAbandonsQueuedRequests : Obligations.ShutdownAbandonsQueuedRequests := by
  intro n
  induction n with
  | zero =>
    intro s t down h
    cases h
    exact ⟨down, fun u => rfl, List.prefix_rfl⟩
  | succ n ih =>
    intro s u down h
    obtain ⟨t, first, others⟩ := run_succ_cases h
    obtain ⟨same, queue⟩ := step_down first down
    obtain ⟨down', same', queue'⟩ := ih t u (step_shutdown first down) others
    exact ⟨down', fun v => (same' v).trans (same v), queue.trans queue'⟩

/-- Every action has a next state: the Dispatcher's because every instruction completes (R196). -/
theorem perform_next (a : Action) (s : State) : ∃ t, perform a s = .next t := by
  cases a with
  | dispatch w =>
    rcases dispatchStep_cases w s with waits | ⟨r, rest, adu, -, -, -, answers⟩
    · exact ⟨_, waits⟩
    · exact ⟨_, answers⟩
  | _ => exact ⟨_, rfl⟩

/-- Settles O51: a step waits, or performs an action. -/
theorem everyStepHasANextState : Obligations.EveryStepHasANextState := by
  intro s
  cases agenda : s.agenda with
  | nil => exact ⟨s, step_of_agenda_nil agenda⟩
  | cons a rest =>
    rw [step_of_agenda_cons agenda]
    exact perform_next a _

end Sys2Proof.Machine
end

section
/-! PROOFS of the register store family: a bit write sets one element and no other of any bank (O17), and so does a word
write (O18). -/

namespace Sys2Proof.Machine

/-! ## The contents of each bank after one is replaced -/

theorem bits_setBits (s : State) (b b' : BitBank) (m : Bank Bool) :
    (s.setBits b m).bits b' = if b' = b then m else s.bits b' := by
  cases b <;> cases b' <;> rfl

theorem words_setWords (s : State) (b b' : WordBank) (m : Bank Word) :
    (s.setWords b m).words b' = if b' = b then m else s.words b' := by
  cases b <;> cases b' <;> rfl

@[simp] theorem words_setBits (s : State) (b : BitBank) (b' : WordBank) (m : Bank Bool) :
    (s.setBits b m).words b' = s.words b' := by
  cases b' <;> simp

@[simp] theorem bits_setWords (s : State) (b : WordBank) (b' : BitBank) (m : Bank Word) :
    (s.setWords b m).bits b' = s.bits b' := by
  cases b' <;> simp

/-! ## One element read after one write -/

theorem bankReadBit_bankWriteBit {s : State} (wf : Memory.wf s = true) (b b' : BitBank) (a a' : Nat) (v : Bool) :
    bankReadBit (bankWriteBit s b a v) b' a' = if b' = b ∧ wrap a' = wrap a then v else bankReadBit s b' a' := by
  simp only [bankReadBit, bankWriteBit, bits_setBits]
  by_cases same : b' = b
  · subst same
    simp [bankGet_bankPut (bits_wf wf b')]
  · simp [same]

theorem bankReadWord_bankWriteWord {s : State} (wf : Memory.wf s = true) (b b' : WordBank) (a a' : Nat) (v : Word) :
    bankReadWord (bankWriteWord s b a v) b' a' = if b' = b ∧ wrap a' = wrap a then v else bankReadWord s b' a' := by
  simp only [bankReadWord, bankWriteWord, words_setWords]
  by_cases same : b' = b
  · subst same
    simp [bankGet_bankPut (words_wf wf b')]
  · simp [same]

@[simp] theorem bankReadWord_bankWriteBit (s : State) (b : BitBank) (b' : WordBank) (a a' : Nat) (v : Bool) :
    bankReadWord (bankWriteBit s b a v) b' a' = bankReadWord s b' a' := by
  simp only [bankReadWord, bankWriteBit, words_setBits]

@[simp] theorem bankReadBit_bankWriteWord (s : State) (b : WordBank) (b' : BitBank) (a a' : Nat) (v : Word) :
    bankReadBit (bankWriteWord s b a v) b' a' = bankReadBit s b' a' := by
  simp only [bankReadBit, bankWriteWord, bits_setWords]

/-- Settles O17: read after write within the bit banks, and the word banks are not touched. -/
theorem bitWriteSetsOneElement : Obligations.BitWriteSetsOneElement := fun s b a v wf =>
  ⟨fun b' a' => bankReadBit_bankWriteBit wf b b' a a' v, fun b' a' => bankReadWord_bankWriteBit s b b' a a' v⟩

/-- Settles O18: read after write within the word banks, and the bit banks are not touched. -/
theorem wordWriteSetsOneElement : Obligations.WordWriteSetsOneElement := fun s b a v wf =>
  ⟨fun b' a' => bankReadWord_bankWriteWord wf b b' a a' v, fun b' a' => bankReadBit_bankWriteWord s b b' a a' v⟩

end Sys2Proof.Machine
end

section
/-! PROOFS of the exceptions family: the host reads and writes one element in one step (O19), which codes an Exception
Frame carries (O26), which instructions change which bank (O27), and what makes a decode fail (O11). -/

namespace Sys2Proof.Machine

/-! ## The host's accesses -/

/-- Between two states whose banks alone differ, nothing was sent. -/
theorem banksOnly.streamsSame {s s' : State} (h : banksOnly s s') : streamsSame s s' := by
  obtain ⟨co, di, hr, ir, rfl⟩ := h
  intro u
  cases u <;> rfl

/-- Between two states whose banks alone differ, the rest is the same. -/
theorem banksOnly.restSame {s s' : State} (h : banksOnly s s') : restSame s s' := by
  obtain ⟨co, di, hr, ir, rfl⟩ := h
  refine ⟨rfl, rfl, rfl, rfl, rfl, rfl, rfl, rfl, rfl, fun u => ?_, fun p => rfl⟩
  cases u <;> rfl

theorem bankWriteBit_banksOnly (s : State) (b : BitBank) (a : Nat) (v : Bool) : banksOnly s (bankWriteBit s b a v) := by
  cases b with
  | co => exact ⟨_, s.di, s.hr, s.ir, rfl⟩
  | di => exact ⟨s.co, _, s.hr, s.ir, rfl⟩

theorem bankWriteWord_banksOnly (s : State) (b : WordBank) (a : Nat) (v : Word) :
    banksOnly s (bankWriteWord s b a v) := by
  cases b with
  | hr => exact ⟨s.co, s.di, _, s.ir, rfl⟩
  | ir => exact ⟨s.co, s.di, s.hr, _, rfl⟩

section HostAccess

variable {s : State} (alive : s.alive = true) (rest : List Action)
include alive

theorem step_pokeBit (b : BitBank) (a : Nat) (v : Bool) :
    step { s with agenda := .pokeBit b a v :: rest } = .next (bankWriteBit (s.withAgenda rest) b a v) :=
  congrArg Host.Outcome.next (if_pos alive)

theorem step_pokeWord (b : WordBank) (a : Nat) (v : Word) :
    step { s with agenda := .pokeWord b a v :: rest } = .next (bankWriteWord (s.withAgenda rest) b a v) :=
  congrArg Host.Outcome.next (if_pos alive)

theorem step_peekBit (b : BitBank) (a : Nat) :
    step { s with agenda := .peekBit b a :: rest } =
      .next { s with agenda := rest, peeks := s.peeks ++ [.bit (bankReadBit s b a)] } := by
  rw [← bankReadBit_withAgenda s rest]
  exact congrArg Host.Outcome.next (if_pos alive)

theorem step_peekWord (b : WordBank) (a : Nat) :
    step { s with agenda := .peekWord b a :: rest } =
      .next { s with agenda := rest, peeks := s.peeks ++ [.word (bankReadWord s b a)] } := by
  rw [← bankReadWord_withAgenda s rest]
  exact congrArg Host.Outcome.next (if_pos alive)

end HostAccess

/-- Settles O19: a poke is one write to a bank, of which O17 and O18 say what is read afterwards, and a bank write
leaves streams and rest alone; a peek adds one value to the list of the values returned. -/
theorem hostAccessIsOneElement : Obligations.HostAccessIsOneElement := by
  intro s rest alive wf
  have wf' : Memory.wf (s.withAgenda rest) = true := wf
  refine ⟨fun b a v => ?_, fun b a v => ?_, step_peekBit alive rest, step_peekWord alive rest⟩
  · obtain ⟨bits, words⟩ := bitWriteSetsOneElement (s.withAgenda rest) b a v wf'
    have quiet := bankWriteBit_banksOnly (s.withAgenda rest) b a v
    refine ⟨_, step_pokeBit alive rest b a v, fun b' a' => ?_, fun b' a' => ?_, fun u => ?_, quiet.restSame⟩
    · rw [bits, bankReadBit_withAgenda]
    · rw [words, bankReadWord_withAgenda]
    · exact (quiet.streamsSame u).trans (txOf_withAgenda ..)
  · obtain ⟨words, bits⟩ := wordWriteSetsOneElement (s.withAgenda rest) b a v wf'
    have quiet := bankWriteWord_banksOnly (s.withAgenda rest) b a v
    refine ⟨_, step_pokeWord alive rest b a v, fun b' a' => ?_, fun b' a' => ?_, fun u => ?_, quiet.restSame⟩
    · rw [words, bankReadWord_withAgenda]
    · rw [bits, bankReadBit_withAgenda]
    · exact (quiet.streamsSame u).trans (txOf_withAgenda ..)

/-! ## The Data of an encoded Frame -/

/-- Where the Data stands in an ADU of the format the header selects (R91, R94). -/
def aduData : Header → List Byte → List Byte
  | .tcp _ _, adu => adu.drop 8
  | .rtu _, adu => (adu.drop 2).take (adu.length - 4)

/-- The Data is read back from an encoded Frame. -/
theorem aduData_of_encodeFrame {f : Frame} {adu : List Byte} (h : encodeFrame f = some adu) :
    aduData f.head adu = f.data := by
  obtain ⟨head, unit, fc, data⟩ := f
  cases head with
  | tcp txn proto =>
    by_cases fits : data.length ≤ Config.tcpMaxData
    · cases (encodeFrame_tcp txn proto unit fc fits).symm.trans h
      rfl
    · cases (if_neg fits).symm.trans h
  | rtu crc =>
    cases h
    have counted : (encodeRtu ⟨.rtu crc, unit, fc, data⟩).length - 4 = data.length := by
      rw [encodeRtu_length, Nat.add_sub_cancel_left]
    rw [aduData, counted]
    exact List.take_left

/-- Of two Frames with one header and one encoding, the Data is the same. -/
theorem data_eq_of_encodeFrame_eq {f g : Frame} {adu : List Byte} (hf : encodeFrame f = some adu)
    (hg : encodeFrame g = some adu) (heads : f.head = g.head) : f.data = g.data := by
  rw [← aduData_of_encodeFrame hf, ← aduData_of_encodeFrame hg, heads]

/-! ## The codes of Exception Frames -/

/-- The codes have three bytes on the wire (R112). -/
theorem excByte_inj {c c' : ExcCode} : excByte c = excByte c' ↔ c = c' := by
  cases c <;> cases c' <;> decide

/-- A handler takes one exception: `IllegalFunction` in a row of `ILLEGAL` (R225), `IllegalDataValue` in the handler of
an admitted code (R226). -/
theorem code_of_handle_exception {i : Instr} {s s' : State} {c : ExcCode} (h : handle i s = (.exception c, s')) :
    c = if isIllegal i then .illegalFunction else .illegalDataValue := by
  cases i with
  | rdco q data | rddi q data =>
    rw [handle] at h
    by_cases ok : readOk Config.maxReadBits data
    · cases (handleReadBits_ok ok _ s).symm.trans h
    · cases (handleReadBits_error ok _ s).symm.trans h
      rfl
  | rdhr q data | rdir q data =>
    rw [handle] at h
    by_cases ok : readOk Config.maxReadRegs data
    · cases (handleReadRegs_ok ok _ s).symm.trans h
    · cases (handleReadRegs_error ok _ s).symm.trans h
      rfl
  | wrmc q data =>
    by_cases ok : writeOk Config.maxWriteBits ceil8 data
    · cases (handleWriteCoils_ok ok s).symm.trans h
    · cases (handleWriteCoils_error ok s).symm.trans h
      rfl
  | wrmr q data =>
    by_cases ok : writeOk Config.maxWriteRegs (2 * ·) data
    · cases (handleWriteRegs_ok ok s).symm.trans h
    · cases (handleWriteRegs_error ok s).symm.trans h
      rfl
  | _ =>
    cases h
    rfl

/-- A Response encoded as the Exception Frame of a code is of that exception: a payload is longer than a code byte
(R98), and each code has its own byte. -/
theorem handle_exception_of_encodeFrame_eq {i : Instr} {s : State} {code : ExcCode} {adu : List Byte}
    (sent : encodeFrame (responseOf (frameOf i) (handle i s).1) = some adu)
    (exceptional : encodeFrame (buildException (frameOf i) code) = some adu) : (handle i s).1 = .exception code := by
  have sameData : (responseOf (frameOf i) (handle i s).1).data = [excByte code] :=
    data_eq_of_encodeFrame_eq sent exceptional (responseOf_head ..)
  cases outcome : (handle i s).1 with
  | success p =>
    have long : 2 ≤ p.length := two_le_length_of_handle_success (Prod.ext outcome rfl)
    rw [outcome] at sameData
    have short : p.length = 1 := congrArg List.length sameData
    omega
  | exception c =>
    rw [outcome] at sameData
    rw [excByte_inj.mp (List.singleton_inj.mp sameData)]

/-- On a transport that takes the Response, the one Exception Frame that the stream of an instruction's origin can gain
has the code of the instruction's handler. -/
theorem code_of_sent {i : Instr} {s t : State} {code : ExcCode} {adu : List Byte} (completes : exec i s = .next t)
    (isOpen : s.isOpen i.origin = true) (taken : s.writeAnswer = .ok)
    (exceptional : encodeFrame (buildException (frameOf i) code) = some adu)
    (gains : t.txOf i.origin = s.txOf i.origin ++ [adu]) :
    code = if isIllegal i then .illegalFunction else .illegalDataValue := by
  obtain ⟨adu', sent, completes', -, adu'', sent', gains', -⟩ := exec_responds i s
  cases completes'.symm.trans completes
  cases sent.symm.trans sent'
  have gained := gains' i.origin
  rw [if_pos ⟨rfl, isOpen, taken⟩, gains] at gained
  cases List.append_cancel_left gained
  exact code_of_handle_exception (Prod.ext (handle_exception_of_encodeFrame_eq sent exceptional) rfl)

/-- Settles O26: `code_of_sent` gives another code than the one sent. -/
theorem illegalDataAddressIsNeverSent : Obligations.IllegalDataAddressIsNeverSent := by
  intro i s t adu completes isOpen taken
  refine ⟨fun exceptional gains => ?_, fun admitted exceptional gains => ?_⟩
  · have code := code_of_sent completes isOpen taken exceptional gains
    split at code <;> cases code
  · have code := code_of_sent completes isOpen taken exceptional gains
    rw [admitted] at code
    cases code

/-! ## The banks an instruction changes -/

/-- Only the handler of `WRMC` changes coils, and only with Data that passes its checks (R189). -/
theorem handle_coils (i : Instr) (s : State) :
    (handle i s).2.co = s.co ∨ ∃ q data, i = .wrmc q data ∧ writeOk Config.maxWriteBits ceil8 data := by
  cases i with
  | wrmc q data =>
    by_cases ok : writeOk Config.maxWriteBits ceil8 data
    · exact .inr ⟨q, data, rfl, ok⟩
    · left
      rw [handle, handleWriteCoils_error ok]
  | wrmr q data =>
    obtain ⟨m, frame⟩ := handleWriteRegs_state data s
    left
    rw [handle, frame]
  | rdco | rddi => simp [handle, handleReadBits_state]
  | rdhr | rdir => simp [handle, handleReadRegs_state]
  | _ => exact .inl rfl

/-- Only the handler of `WRMR` changes Holding Registers, and only with Data that passes its checks (R190). -/
theorem handle_holdingRegisters (i : Instr) (s : State) :
    (handle i s).2.hr = s.hr ∨ ∃ q data, i = .wrmr q data ∧ writeOk Config.maxWriteRegs (2 * ·) data := by
  cases i with
  | wrmc q data =>
    obtain ⟨m, frame⟩ := handleWriteCoils_state data s
    left
    rw [handle, frame]
  | wrmr q data =>
    by_cases ok : writeOk Config.maxWriteRegs (2 * ·) data
    · exact .inr ⟨q, data, rfl, ok⟩
    · left
      rw [handle, handleWriteRegs_error ok]
  | rdco | rddi => simp [handle, handleReadBits_state]
  | rdhr | rdir => simp [handle, handleReadRegs_state]
  | _ => exact .inl rfl

/-- Settles O27: an instruction leaves the banks as its handler does. -/
theorem onlyCheckedWritesChangeBanks : Obligations.OnlyCheckedWritesChangeBanks := by
  intro i s t completes
  obtain ⟨t', -, completes', ⟨co, di, hr, ir⟩, -⟩ := exec_effect i s
  cases completes'.symm.trans completes
  obtain ⟨discreteInputs, inputRegisters⟩ := handle_inputs i s
  rw [co, di, hr, ir]
  exact ⟨discreteInputs, inputRegisters, handle_coils i s, handle_holdingRegisters i s⟩

/-! ## The causes of a decode error -/

theorem u16le_toNat (l h : Byte) : (u16le l h).toNat = l.toNat + 256 * h.toNat :=
  (u16be_toNat h l).trans (Nat.add_comm ..)

/-- The TCP decoder never fails with a checksum mismatch, there being none to check (R143). -/
theorem decodeTcp_ne_checksumMismatch (b : List Byte) : decodeTcp b ≠ .error .checksumMismatch := by
  unfold decodeTcp
  split_ifs <;> nofun

theorem decodeTcp_eq_malformedFrame_iff (b : List Byte) :
    decodeTcp b = .error .malformedFrame ↔
      b.length < 8 ∨ 256 * (byteAt b 4).toNat + (byteAt b 5).toNat ≠ b.length - 6 := by
  rw [← u16be_toNat]
  unfold decodeTcp
  split_ifs with short disagrees
  · exact iff_of_true rfl (.inl short)
  · exact iff_of_true rfl (.inr disagrees)
  · exact iff_of_false nofun (not_or.mpr ⟨short, disagrees⟩)

theorem decodeRtu_eq_malformedFrame_iff (b : List Byte) : decodeRtu b = .error .malformedFrame ↔ b.length < 5 := by
  unfold decodeRtu
  dsimp only
  split_ifs with short differs
  · exact iff_of_true rfl short
  · exact iff_of_false nofun short
  · exact iff_of_false nofun short

/-- The length is tested before the checksum (R230). -/
theorem decodeRtu_eq_checksumMismatch_iff (b : List Byte) :
    decodeRtu b = .error .checksumMismatch ↔
      5 ≤ b.length ∧ (byteAt b (b.length - 2)).toNat + 256 * (byteAt b (b.length - 1)).toNat ≠
        (crc16 (b.take (b.length - 2))).toNat := by
  rw [← u16le_toNat, Ne, BitVec.toNat_inj]
  unfold decodeRtu
  dsimp only
  split_ifs with short differs
  · exact iff_of_false nofun fun h => absurd short (Nat.not_lt.mpr h.1)
  · exact iff_of_true rfl ⟨Nat.le_of_not_lt short, differs⟩
  · exact iff_of_false nofun fun h => differs h.2

/-- Settles O11: the causes of each decoder's errors, with the transport selecting the decoder (R141). -/
theorem decodeErrorCauses : Obligations.DecodeErrorCauses :=
  ⟨fun _ b => ⟨decodeTcp_ne_checksumMismatch b, decodeTcp_eq_malformedFrame_iff b⟩,
    fun _ b => ⟨decodeRtu_eq_malformedFrame_iff b, decodeRtu_eq_checksumMismatch_iff b⟩⟩

end Sys2Proof.Machine
end

section
/-! PROOFS of the reset and hazards family: an RTU frame followed by zero bytes is accepted again (O4) and one without
Data never (O12), a Dispatcher that moves drains the queue (O40), the steps of the host and the listener (O46), and what
is observed of a run: it stays as it is after shutdown (O49), and it is the streams and the banks (O50). -/

namespace Sys2Proof.Machine

/-! ## Zero bytes behind an RTU frame -/

/-- A checksum with its low byte taken in is its high byte, sent as that byte and a zero. -/
theorem crcBytes_crc16_append_lo8 (s : List Byte) :
    crcBytes (crc16 (s ++ [lo8 (crc16 s)])) = [hi8 (crc16 s), 0#8] := by
  have next : crc16 (s ++ [lo8 (crc16 s)]) = u16le (hi8 (crc16 s)) 0#8 :=
    calc crc16 (s ++ [lo8 (crc16 s)])
        = crcUpdate (crc16 s) (lo8 (crc16 s)) := crc16_append ..
      _ = (hi8 (crc16 s)).setWidth 16 := crcUpdate_lo8 _
      _ = u16le (hi8 (crc16 s)) 0#8 := (BitVec.setWidth_eq_append (by decide)).trans rfl
  rw [next, crcBytes_u16le]

/-- What an accepted Frame becomes with one zero byte behind its ADU: the checksum's low byte is Data, and its high byte
and the zero are the new checksum (R279). -/
def zeroPadded (f : Frame) : Frame where
  head := .rtu (some (crc16 (rtuBody f ++ [lo8 (crc16 (rtuBody f))])))
  unit := f.unit
  fc := f.fc
  data := f.data ++ [lo8 (crc16 (rtuBody f))]

theorem rtuBody_zeroPadded (f : Frame) : rtuBody (zeroPadded f) = rtuBody f ++ [lo8 (crc16 (rtuBody f))] :=
  (List.append_assoc ..).symm

theorem encodeRtu_zeroPadded (f : Frame) : encodeRtu (zeroPadded f) = encodeRtu f ++ [0#8] := by
  rw [encodeRtu, encodeRtu, rtuBody_zeroPadded, crcBytes_crc16_append_lo8]
  simp [crcBytes]

theorem decodeRtu_append_zero {b : List Byte} {f : Frame} (accepted : decodeRtu b = .ok f) :
    decodeRtu (b ++ [0#8]) = .ok (zeroPadded f) := by
  obtain ⟨-, -, rfl⟩ := (decodeRtu_eq_ok_iff b f).1 accepted
  rw [← encodeRtu_zeroPadded, decodeRtu_eq_ok_iff, rtuBody_zeroPadded]
  exact ⟨rfl, by simp [zeroPadded], rfl⟩

/-- What the decoder accepts has its Data between the two header bytes and the two checksum bytes (R144). -/
theorem data_of_decodeRtu {b : List Byte} {f : Frame} (accepted : decodeRtu b = .ok f) :
    f.data = (b.drop 2).take (b.length - 4) := by
  obtain ⟨head, -, rfl⟩ := (decodeRtu_eq_ok_iff b f).1 accepted
  rw [← aduData_of_encodeFrame (encodeFrame_of_head_rtu head), head, aduData]

theorem decodeRtu_append_zeros {b : List Byte} {f : Frame} (accepted : decodeRtu b = .ok f) (n : Nat) :
    ∃ g, decodeRtu (b ++ List.replicate n 0#8) = .ok g ∧ g.unit = f.unit ∧ g.fc = f.fc := by
  induction n with
  | zero => exact ⟨f, by simpa using accepted, rfl, rfl⟩
  | succ n ih =>
    obtain ⟨g, accepted', unit, fc⟩ := ih
    rw [List.replicate_succ', ← List.append_assoc]
    exact ⟨zeroPadded g, decodeRtu_append_zero accepted', unit, fc⟩

/-- Settles O4: the zero bytes are taken in one at a time, and the Data of what is accepted is read off its bytes. -/
theorem zeroPaddedRtuFrameIsAccepted : Obligations.ZeroPaddedRtuFrameIsAccepted := by
  intro b f n accepted
  obtain ⟨g, padded, unit, fc⟩ := decodeRtu_append_zeros accepted n
  obtain ⟨-, -, rfl⟩ := (decodeRtu_eq_ok_iff b f).1 accepted
  refine ⟨g, padded, unit, fc, ?_⟩
  rw [data_of_decodeRtu padded, List.length_append, List.length_replicate,
    List.drop_append_of_le_length (by rw [encodeRtu_length]; omega)]

/-- Settles O12: the two header bytes and the checksum are one byte short of the least ADU. -/
theorem rtuFrameWithoutDataIsNotReceived : Obligations.RtuFrameWithoutDataIsNotReceived := by
  intro crc unit fc
  have length : (encodeRtu ⟨.rtu crc, unit, fc, []⟩).length = 4 := encodeRtu_length _
  refine ⟨_, encodeFrame_rtu crc unit fc [], length, decodeRtu_of_short ?_⟩
  exact length.trans_lt (by decide)

/-! ## The Dispatcher drains the queue -/

theorem restSame.isOpen {s t : State} (h : restSame s t) (u : Transport) : t.isOpen u = s.isOpen u := by
  obtain ⟨-, -, -, -, -, -, -, -, -, links, -⟩ := h
  have of_quiet : ∀ v : State, v.isOpen u = ((v.link? u).map Link.quiet).any Link.isOpen := fun v => by
    rw [State.isOpen]
    cases v.link? u <;> rfl
  rw [of_quiet, of_quiet, links]

/-- The state in which the handler of the next Request runs: the queue without it, the device's answer set (log 6). -/
def State.dequeued (s : State) (w : WriteAnswer) (rest : List Action) : State :=
  { s with agenda := rest, rq := s.rq.tail, writeAnswer := w }

theorem isOpen_dequeued (s : State) (w : WriteAnswer) (rest : List Action) (u : Transport) :
    (s.dequeued w rest).isOpen u = s.isOpen u := by
  cases u <;> rfl

theorem txOf_dequeued (s : State) (w : WriteAnswer) (rest : List Action) (u : Transport) :
    (s.dequeued w rest).txOf u = s.txOf u := by
  cases u <;> rfl

/-- The Dispatcher's move before shutdown completes with one Response to the Request at the head, and takes nothing else
from the queue or the agenda (R180, R181). -/
theorem step_dispatch_completes {s : State} {w : WriteAnswer} {r : Request} {tail : List Request} {rest : List Action}
    (alive : s.alive = true) (up : s.shutdown = false) (queue : s.rq = r :: tail)
    (agenda : s.agenda = .dispatch w :: rest) :
    ∃ t adu, step s = .next t ∧ restSame (s.dequeued w rest) t ∧ streamGains (s.dequeued w rest) t r.origin adu := by
  obtain ⟨_, -, -, completes, adu, -, gains, same⟩ := exec_responds (instrOf r) (s.dequeued w rest)
  refine ⟨_, adu, ?_, same, instrOf_origin r ▸ gains⟩
  calc step s
      = step { s with agenda := .dispatch w :: rest } := by rw [← agenda]
    _ = exec (instrOf r) { s with agenda := rest, rq := tail, writeAnswer := w } := step_dispatch alive up queue w rest
    _ = exec (instrOf r) (s.dequeued w rest) := by rw [State.dequeued, queue, List.tail_cons]
    _ = _ := completes

/-- How many of the Requests came from `u`. -/
def requestsOf (u : Transport) (q : List Request) : Nat := (q.filter fun r => decide (r.origin = u)).length

theorem requestsOf_cons (u : Transport) (r : Request) (q : List Request) :
    requestsOf u (r :: q) = (if r.origin = u then 1 else 0) + requestsOf u q := by
  by_cases origin : r.origin = u
  · simp [requestsOf, origin, Nat.add_comm]
  · simp [requestsOf, origin]

/-- On an open transport whose device takes the `Write`, the stream gains one ADU if the Request came from there. -/
theorem streamGains.length_txOf {s t : State} {o u : Transport} {adu : List Byte} (h : streamGains s t o adu)
    (isOpen : s.isOpen u = true) (taken : s.writeAnswer = .ok) :
    (t.txOf u).length = (s.txOf u).length + if o = u then 1 else 0 := by
  rw [h u]
  by_cases origin : o = u
  · subst origin
    simp [isOpen, taken]
  · simp [origin, Ne.symm origin]

/-- Settles O40, by induction on the moves: each answers the head of the queue. -/
theorem dispatcherDrainsQueue : Obligations.DispatcherDrainsQueue := by
  intro ws
  induction ws with
  | nil =>
    intro s rest _ _ _ agenda
    exact ⟨s, rfl, rfl, agenda, fun _ u _ => rfl⟩
  | cons w ws ih =>
    intro s rest alive up enough agenda
    obtain ⟨r, tail, queue⟩ : ∃ r tail, s.rq = r :: tail := List.exists_cons_of_length_pos (Nat.zero_lt_of_lt enough)
    obtain ⟨t, adu, first, same, gains⟩ := step_dispatch_completes alive up queue agenda
    have isOpen (u : Transport) : t.isOpen u = s.isOpen u := (same.isOpen u).trans (isOpen_dequeued ..)
    obtain ⟨queue', up', alive', -, -, -, agenda', -⟩ := same
    have left : t.rq = tail := queue'.trans (congrArg List.tail queue)
    obtain ⟨v, others, drained, agenda'', sent⟩ := ih t rest (alive'.trans alive) (up'.trans up)
      (by rw [left]; simpa [queue] using enough) agenda'
    refine ⟨v, (run_succ_of_step first _).trans others, by simp [drained, left, queue], agenda'',
      fun taken u opened => ?_⟩
    obtain ⟨rfl, taken'⟩ := List.forall_mem_cons.mp taken
    have one := gains.length_txOf ((isOpen_dequeued ..).trans opened) rfl
    rw [txOf_dequeued] at one
    calc (v.txOf u).length
        = (t.txOf u).length + requestsOf u (tail.take ws.length) := left ▸ sent taken' u ((isOpen u).trans opened)
      _ = (s.txOf u).length + requestsOf u (r :: tail.take ws.length) := by
        rw [one, requestsOf_cons, Nat.add_assoc]
      _ = (s.txOf u).length + requestsOf u (s.rq.take (ws.length + 1)) := by rw [queue, List.take_succ_cons]

/-! ## The steps of the host and the listener -/

/-- A change of every link is a change of each transport's. -/
theorem link?_of_map_link {s t : State} {f : Link → Link}
    (ports : t.ports = s.ports.map fun q => { q with link := f q.link }) (conns : t.conns = s.conns.map f)
    (u : Transport) : t.link? u = (s.link? u).map f := by
  cases u with
  | serial p => simp [State.link?, ports, Function.comp_def]
  | tcp c => simp [State.link?, conns]

/-- A fresh transport is open, with nothing pending or sent (R39). -/
theorem fresh_of_link? {s : State} {u : Transport} (fresh : s.link? u = some Link.fresh) :
    s.isOpen u = true ∧ s.pendOf u = none ∧ s.txOf u = [] := by
  simp [State.isOpen, State.pendOf, State.txOf, fresh, Link.fresh]

section HostControl

variable {s : State} (alive : s.alive = true) (rest : List Action)
include alive

/-- A port is opened under the next number, with an empty buffer (R262). -/
theorem step_openSerial (up : s.shutdown = false) (room : s.ports.length < s.nSerial) :
    ∃ t, step { s with agenda := .openSerial :: rest } = .next t ∧ t.ports = s.ports ++ [Port.fresh] ∧
      t.link? (.serial s.ports.length) = some Link.fresh ∧ t.rxbufOf s.ports.length = [] := by
  have enabled : canOpenSerial { s with agenda := rest } = true := by simp [canOpenSerial, alive, up, room]
  refine ⟨_, congrArg Host.Outcome.next (if_pos enabled), rfl, ?_, ?_⟩
  · simp [State.link?, Port.fresh]
  · simp [State.rxbufOf, Port.fresh]

/-- A connection is accepted under the next number (R242). -/
theorem step_accept (up : s.shutdown = false) :
    ∃ t, step { s with agenda := .accept :: rest } = .next t ∧ t.conns = s.conns ++ [Link.fresh] ∧
      t.link? (.tcp s.conns.length) = some Link.fresh := by
  refine ⟨_, congrArg Host.Outcome.next (if_pos (by simp [alive, up])), rfl, ?_⟩
  simp [State.link?]

/-- Raising shutdown sets the bit and closes nothing (R238; log 9). -/
theorem step_raiseShutdown (up : s.shutdown = false) :
    ∃ t, step { s with agenda := .raiseShutdown :: rest } = .next t ∧ t.shutdown = true ∧ t.rq = s.rq ∧
      t.alive = true ∧ observe t = observe s ∧ ∀ u, t.isOpen u = s.isOpen u := by
  have raised : raiseShutdownStep { s with agenda := rest } = _ := if_pos (by simp [alive, up])
  refine ⟨raiseShutdownStep { s with agenda := rest }, rfl, by rw [raised], by rw [raised], by rw [raised, ← alive],
    observe_raiseShutdownStep _, fun u => ?_⟩
  have links := link?_of_map_link (f := Link.atShutdown) (congrArg State.ports raised) (congrArg State.conns raised) u
  rw [State.isOpen, links, link?_withAgenda, State.isOpen]
  cases s.link? u <;> rfl

/-- Destruction leaves no transport open and no read in progress (R264; log 5). -/
theorem step_destroy (down : s.shutdown = true) :
    ∃ t, step { s with agenda := .destroy :: rest } = .next t ∧ t.alive = false ∧ runEnded t = true ∧
      observe t = observe s ∧ ∀ u, t.isOpen u = false := by
  have destroyed : destroyStep { s with agenda := rest } = _ := if_pos (by simp [alive, down])
  have ended (u : Transport) : (destroyStep { s with agenda := rest }).inReadOf u = false := by
    have links := link?_of_map_link (f := Link.released) (congrArg State.ports destroyed)
      (congrArg State.conns destroyed) u
    rw [State.inReadOf, links]
    cases State.link? { s with agenda := rest } u <;> rfl
  refine ⟨destroyStep { s with agenda := rest }, rfl, by rw [destroyed], ?_, observe_destroyStep _, fun u => ?_⟩
  · exact (runEnded_iff _).mpr ⟨by rw [destroyed, ← down], ended⟩
  · rw [destroyed]
    exact isOpen_released ..

end HostControl

/-- Settles O46: one enabled step each. -/
theorem hostControlSteps : Obligations.HostControlSteps := by
  intro s rest alive
  refine ⟨fun up => ⟨fun room => ?_, ?_, ?_⟩, step_destroy alive rest⟩
  · obtain ⟨t, opens, ports, link, rxbuf⟩ := step_openSerial alive rest up room
    obtain ⟨isOpen, pend, tx⟩ := fresh_of_link? link
    exact ⟨t, opens, ports, isOpen, rxbuf, pend, tx⟩
  · obtain ⟨t, accepts, conns, link⟩ := step_accept alive rest up
    exact ⟨t, accepts, conns, fresh_of_link? link⟩
  · obtain ⟨t, raises, down, queue, alive', same, isOpen⟩ := step_raiseShutdown alive rest up
    exact ⟨t, raises, down, banksSame_of_observe same, streamsSame_of_observe same, queue, alive', isOpen⟩

/-! ## What is observed after shutdown -/

theorem noPokes_cons {a : Action} {as : List Action} (h : noPokes (a :: as)) :
    ((∀ b k v, a ≠ .pokeBit b k v) ∧ ∀ b k v, a ≠ .pokeWord b k v) ∧ noPokes as := by
  obtain ⟨bits, words⟩ := h
  simp only [List.mem_cons, not_or, forall_and] at bits words
  obtain ⟨noBit, bits⟩ := bits
  obtain ⟨noWord, words⟩ := words
  exact ⟨⟨fun b k v poke => noBit b k v poke.symm, fun b k v poke => noWord b k v poke.symm⟩, bits, words⟩

/-- After shutdown only a poke changes what is observed: no transport is opened, nothing is dispatched (R197, R242). -/
theorem Effect.observe_down {a : Action} {s t : State} (effect : Effect a s t) (h : perform a s = .next t)
    (down : s.shutdown = true) (noPoke : (∀ b k v, a ≠ .pokeBit b k v) ∧ ∀ b k v, a ≠ .pokeWord b k v) :
    observe t = observe s := by
  have waits (disabled : a.enabled s = false) : observe t = observe s :=
    congrArg observe (Host.Outcome.next.inj (h.symm.trans (perform_of_not_enabled disabled)))
  cases effect with
  | none same => exact same
  | opened action => exact waits (by simp [action, Action.enabled, canOpenSerial, down])
  | accepted action => exact waits (by simp [action, Action.enabled, down])
  | pokedBit b k v action => exact absurd action (noPoke.1 b k v)
  | pokedWord b k v action => exact absurd action (noPoke.2 b k v)
  | dispatched w r rest adu action => exact waits (by simp [action, Action.enabled, canDispatch, down])

theorem step_observe_down {s t : State} (h : step s = .next t) (down : s.shutdown = true) (quiet : noPokes s.agenda) :
    observe t = observe s ∧ noPokes t.agenda := by
  rcases step_cases h with ⟨-, rfl⟩ | ⟨a, rest, agenda, hp⟩
  · exact ⟨rfl, quiet⟩
  · obtain ⟨noPoke, quiet'⟩ := noPokes_cons (agenda ▸ quiet)
    exact ⟨(perform_effect hp).observe_down hp down noPoke, (perform_agenda hp).symm ▸ quiet'⟩

theorem run_observe_down {n : Nat} {s t : State} (h : run n s = .next t) (down : s.shutdown = true)
    (quiet : noPokes s.agenda) : observe t = observe s := by
  induction n generalizing s with
  | zero =>
    cases h
    rfl
  | succ n ih =>
    obtain ⟨v, first, others⟩ := run_succ_cases h
    obtain ⟨same, quiet'⟩ := step_observe_down first down quiet
    exact (ih others (step_shutdown first down) quiet').trans same

/-- Settles O49: no step that is no poke changes what is observed, and a task that has no read in progress takes none up
(`run_finished`). -/
theorem nothingAfterShutdownIsObserved : Obligations.NothingAfterShutdownIsObserved := by
  intro n s t down h
  refine ⟨run_observe_down h down, fun ended => ?_⟩
  obtain ⟨-, done⟩ := (runEnded_iff s).mp ended
  obtain ⟨down', -⟩ := shutdownAbandonsQueuedRequests n s t down h
  exact (runEnded_iff t).mpr ⟨down', fun u => (run_finished h down (done u)).2⟩

/-! ## The observation is the streams and the banks -/

/-- A canonical bank lists no address from 65536 on. -/
theorem bankGet_of_bankCap_le {α : Type} [DecidableEq α] {d : α} {lo a : Nat} {m : Bank α}
    (wf : bankWfFrom d lo m = true) (h : Config.bankCap ≤ a) : bankGet d m a = d := by
  induction m generalizing lo with
  | nil => rfl
  | cons e m ih =>
    obtain ⟨k, v⟩ := e
    obtain ⟨-, bound, -, wf'⟩ := bankWfFrom_cons.mp wf
    rw [bankGet, if_neg (by omega), ih wf']

/-- Canonical banks that read the same at every element are the same bank. -/
theorem bank_ext {α : Type} [DecidableEq α] {d : α} {m m' : Bank α} (wf : bankWf d m = true)
    (wf' : bankWf d m' = true) (same : ∀ a, bankGet d m (wrap a) = bankGet d m' (wrap a)) : m = m' := by
  refine bankWfFrom_ext wf wf' fun a => ?_
  by_cases inside : a < Config.bankCap
  · have unwrapped : wrap a = a := Nat.mod_eq_of_lt inside
    simpa only [unwrapped] using same a
  · rw [bankGet_of_bankCap_le wf (Nat.le_of_not_lt inside), bankGet_of_bankCap_le wf' (Nat.le_of_not_lt inside)]

theorem banksEqual_of_banksSame {s t : State} (wf : Memory.wf s = true) (wf' : Memory.wf t = true)
    (same : banksSame s t) : banksEqual t s := by
  obtain ⟨bits, words⟩ := same
  exact ⟨bank_ext (bits_wf wf' .co) (bits_wf wf .co) (bits .co), bank_ext (bits_wf wf' .di) (bits_wf wf .di) (bits .di),
    bank_ext (words_wf wf' .hr) (words_wf wf .hr) (words .hr),
    bank_ext (words_wf wf' .ir) (words_wf wf .ir) (words .ir)⟩

/-- Lists of one length that read the same at every place are the same list. -/
theorem eq_of_getD_eq {α : Type} {d : α} {l l' : List α} (length : l.length = l'.length)
    (same : ∀ i, l.getD i d = l'.getD i d) : l = l' := by
  refine List.ext_getElem length fun i hi hi' => ?_
  rw [← List.getD_eq_getElem l d hi, ← List.getD_eq_getElem l' d hi', same]

/-- With as many transports and canonical banks, the streams and the banks are all that is observed (R266). -/
theorem observe_eq_iff {s t : State} (wf : Memory.wf s = true) (wf' : Memory.wf t = true)
    (ports : s.ports.length = t.ports.length) (conns : s.conns.length = t.conns.length) :
    observe t = observe s ↔ streamsSame s t ∧ banksSame s t := by
  refine ⟨fun same => ⟨streamsSame_of_observe same, banksSame_of_observe same⟩, fun ⟨streams, banks⟩ => ?_⟩
  have serial : (observe t).serial = (observe s).serial := by
    refine eq_of_getD_eq (d := []) (by simp [observe, ports]) fun p => ?_
    rw [← txOf_serial, ← txOf_serial, streams]
  have tcp : (observe t).tcp = (observe s).tcp := by
    refine eq_of_getD_eq (d := []) (by simp [observe, conns]) fun c => ?_
    rw [← txOf_tcp, ← txOf_tcp, streams]
  obtain ⟨co, di, hr, ir⟩ := banksEqual_of_banksSame wf wf' banks
  calc observe t
      = ⟨(observe t).serial, (observe t).tcp, t.co, t.di, t.hr, t.ir⟩ := rfl
    _ = observe s := by rw [serial, tcp, co, di, hr, ir]; rfl

/-- Settles O50: the result of an ended run is its observation. -/
theorem runResultIsStreamsAndBanks : Obligations.RunResultIsStreamsAndBanks := by
  intro s t wf wf' ended ended' ports conns
  rw [runResult, if_pos ended, runResult, if_pos ended', Option.some_inj, eq_comm]
  exact observe_eq_iff wf wf' ports conns

end Sys2Proof.Machine
end
